-- ==== Sys2Proof/Word.lean ====
section
/-! DEFINITION. The Word and Byte types of the LC3-VM core (00_scope.md R7). Arithmetic on Words is BitVec's: addition
wraps modulo 2^16, &&& and ~~~ act on the 16 bits. -/

namespace Sys2Proof

/-- A Word: "a 16-bit unsigned integer" (R7). Registers, cells, pc and addresses are Words. -/
abbrev Word := BitVec 16

/-- A console or image byte, 0 to 255. -/
abbrev Byte := BitVec 8

/-- An index 0 to 7 of a general register (R20). It is a name, never added to or masked. -/
abbrev RegIdx := Fin 8

end Sys2Proof
end

