-- ==== Sys2Proof/Config.lean ====
section
/-! DEFINITION. The configuration of the machine: the parameters 00_scope.md R6 leaves open, the constraints it puts on
them, and the one free value the environment supplies. The parameters' VALUES stand in Machine/Params.lean. -/

namespace Sys2Proof

/-- The sixteen opcode names of 30_encoding.md R86, in the order of that rule's table. -/
inductive Opcode where
  | br | add | ld | st | jsr | and | ldr | str | rti | not | ldi | sti | jmp | res | lea | trap
  deriving DecidableEq, Repr

/-- Every opcode name once. -/
def Opcode.all : List Opcode :=
  [.br, .add, .ld, .st, .jsr, .and, .ldr, .str, .rti, .not, .ldi, .sti, .jmp, .res, .lea, .trap]

/-- The named parameters of 00_scope.md R6. -/
structure Config where
  /-- `OPC`: the number in instr[15:12] of each opcode name -/
  opc : Opcode → BitVec 4
  /-- `KBSR_ADDR`: the address of the console status register -/
  kbsrAddr : Word
  /-- `KBDR_ADDR`: the address of the console data register -/
  kbdrAddr : Word
  /-- `FL_POS` -/
  flPos : Word
  /-- `FL_ZRO` -/
  flZro : Word
  /-- `FL_NEG` -/
  flNeg : Word
  /-- `IN_PROMPT`: what the IN trap writes before it reads -/
  inPrompt : List Byte
  /-- `HALT_NOTICE`: what the HALT trap writes -/
  haltNotice : List Byte

/-- The constraints R6 (with D3) gives: OPC is a bijection, the two console addresses differ, and the three flag Words
are different one-hot values below 8, so that each meets a 3-bit mask. -/
def Config.wf (c : Config) : Bool :=
  (Opcode.all.map c.opc).Nodup
    && c.kbsrAddr != c.kbdrAddr
    && [c.flPos, c.flZro, c.flNeg].Nodup
    && [c.flPos, c.flZro, c.flNeg].all (fun f => [(1 : Word), 2, 4].contains f)

/-- FREE VALUE (10_state.md R30, D7; log 8). The n-th answer the environment gives to InReady() while a byte is pending,
once the answers listed in State are used up and no endless feed is set there. It has no body: a claim holds whatever it
answers. -/
opaque Config.inReadyDraw : Nat → Bool

end Sys2Proof
end

