-- ==== Sys2Proof/Machine/Params.lean ====
section
/-! DEFINITION. The values of the parameters (00_scope.md R5, R6). R5's are fixed by the spec; R6's are the spec's own
defaults (92_eei_decisions.md D1, D2, D3, D9), PRESUMED there from the LC-3 (logs 1 to 4). -/

namespace Sys2Proof

/-- The opcode numbers of 30_encoding.md R86 (PRESUMED, D1, log 1). -/
def opcodeNumber : Opcode → BitVec 4
  | .br => 0x0 | .add => 0x1 | .ld => 0x2 | .st => 0x3
  | .jsr => 0x4 | .and => 0x5 | .ldr => 0x6 | .str => 0x7
  | .rti => 0x8 | .not => 0x9 | .ldi => 0xA | .sti => 0xB
  | .jmp => 0xC | .res => 0xD | .lea => 0xE | .trap => 0xF

/-- The 19 bytes of "Enter a character: " (PRESUMED, D9, log 4). -/
def inPromptText : List Byte :=
  [0x45, 0x6E, 0x74, 0x65, 0x72, 0x20, 0x61, 0x20, 0x63, 0x68, 0x61, 0x72, 0x61, 0x63, 0x74, 0x65, 0x72, 0x3A, 0x20]

/-- The 5 bytes of "HALT" and a newline (PRESUMED, D9, log 4). -/
def haltNoticeText : List Byte := [0x48, 0x41, 0x4C, 0x54, 0x0A]

/-- The parameters of this machine, at the spec's defaults (R6). -/
def config : Config where
  opc := opcodeNumber
  kbsrAddr := 0xFE00
  kbdrAddr := 0xFE02
  flPos := 0x0001
  flZro := 0x0002
  flNeg := 0x0004
  inPrompt := inPromptText
  haltNotice := haltNoticeText

/-- `PC_START` (R5): where execution begins. -/
def pcStart : Word := 0x3000

/-- The link register x[7] (10_state.md R21). -/
def linkReg : RegIdx := 7

/-- The argument and result register x[0] of the trap service routines (R21). -/
def trapReg : RegIdx := 0

end Sys2Proof
end

