-- ==== Sys2Proof/Syntax.lean ====
section
/-! DEFINITION. The instructions: one constructor per row of spec/opcode_table.json. Fields carry the names of
00_scope.md R11; bits no handler reads (30_encoding.md R87) are not part of an instruction. -/

namespace Sys2Proof

/-- An instruction. `dr`, `sr1`, `sr2`, `sr`, `baseR` are register indices; immediates and offsets are the raw fields,
sign-extended by the machine (R82). -/
inductive Instr where
  /-- ADD, register mode (R110) -/
  | addReg (dr sr1 sr2 : RegIdx)
  /-- ADD, immediate mode (R111) -/
  | addImm (dr sr1 : RegIdx) (imm5 : BitVec 5)
  /-- AND, register mode (R112) -/
  | andReg (dr sr1 sr2 : RegIdx)
  /-- AND, immediate mode (R113) -/
  | andImm (dr sr1 : RegIdx) (imm5 : BitVec 5)
  /-- NOT (R114) -/
  | not (dr sr : RegIdx)
  /-- BR (R120): `cond` is the mask instr[11:9], n z p from bit 2 down -/
  | br (cond : BitVec 3) (pcoffset9 : BitVec 9)
  /-- JMP (R121); RET is JMP R7 -/
  | jmp (baseR : RegIdx)
  /-- JSR (R122) -/
  | jsr (pcoffset11 : BitVec 11)
  /-- JSRR (R123) -/
  | jsrr (baseR : RegIdx)
  /-- LD (R130) -/
  | ld (dr : RegIdx) (pcoffset9 : BitVec 9)
  /-- LDI (R131) -/
  | ldi (dr : RegIdx) (pcoffset9 : BitVec 9)
  /-- LDR (R132) -/
  | ldr (dr baseR : RegIdx) (offset6 : BitVec 6)
  /-- LEA (R133) -/
  | lea (dr : RegIdx) (pcoffset9 : BitVec 9)
  /-- ST (R134) -/
  | st (sr : RegIdx) (pcoffset9 : BitVec 9)
  /-- STI (R135) -/
  | sti (sr : RegIdx) (pcoffset9 : BitVec 9)
  /-- STR (R136) -/
  | str (sr baseR : RegIdx) (offset6 : BitVec 6)
  /-- TRAP x20, GETCHAR (R141) -/
  | trapGetchar
  /-- TRAP x21, OUTPUTCHAR (R142) -/
  | trapOutputchar
  /-- TRAP x22, PUTS (R143) -/
  | trapPuts
  /-- TRAP x23, IN (R144) -/
  | trapIn
  /-- TRAP x24, PUTSP (R145) -/
  | trapPutsp
  /-- TRAP x25, HALT (R146) -/
  | trapHalt
  /-- TRAP with an unrecognised vector, 0x00 to 0x1F (R147) -/
  | trapBad00to1F (trapvect8 : BitVec 8)
  /-- TRAP with an unrecognised vector, 0x26 to 0x27 (R147) -/
  | trapBad26to27 (trapvect8 : BitVec 8)
  /-- TRAP with an unrecognised vector, 0x28 to 0x2F (R147) -/
  | trapBad28to2F (trapvect8 : BitVec 8)
  /-- TRAP with an unrecognised vector, 0x30 to 0x3F (R147) -/
  | trapBad30to3F (trapvect8 : BitVec 8)
  /-- TRAP with an unrecognised vector, 0x40 to 0x7F (R147) -/
  | trapBad40to7F (trapvect8 : BitVec 8)
  /-- TRAP with an unrecognised vector, 0x80 to 0xFF (R147) -/
  | trapBad80toFF (trapvect8 : BitVec 8)
  /-- RTI (R150) -/
  | rti
  /-- RES (R151) -/
  | res
  deriving DecidableEq, Repr

end Sys2Proof
end

