-- ==== Sys2Proof/WellFormed.lean ====
section
/-! DEFINITION. Which instructions some Word encodes. Every register index and every immediate or offset fits its field by
its type; what is left to check is that a vector belongs to the row that names it. -/

namespace Sys2Proof

/-- The vector lies between the two bounds of its opcode-table row. -/
def vectorIn (lo hi : Nat) (v : BitVec 8) : Bool := decide (lo ≤ v.toNat) && decide (v.toNat ≤ hi)

/-- A well-formed instruction: the vector of each unrecognised TRAP row is in that row's range (R147). -/
def Instr.wf : Instr → Bool
  | .addReg _ _ _ => true
  | .addImm _ _ _ => true
  | .andReg _ _ _ => true
  | .andImm _ _ _ => true
  | .not _ _ => true
  | .br _ _ => true
  | .jmp _ => true
  | .jsr _ => true
  | .jsrr _ => true
  | .ld _ _ => true
  | .ldi _ _ => true
  | .ldr _ _ _ => true
  | .lea _ _ => true
  | .st _ _ => true
  | .sti _ _ => true
  | .str _ _ _ => true
  | .trapGetchar => true
  | .trapOutputchar => true
  | .trapPuts => true
  | .trapIn => true
  | .trapPutsp => true
  | .trapHalt => true
  | .trapBad00to1F v => vectorIn 0x00 0x1F v
  | .trapBad26to27 v => vectorIn 0x26 0x27 v
  | .trapBad28to2F v => vectorIn 0x28 0x2F v
  | .trapBad30to3F v => vectorIn 0x30 0x3F v
  | .trapBad40to7F v => vectorIn 0x40 0x7F v
  | .trapBad80toFF v => vectorIn 0x80 0xFF v
  | .rti => true
  | .res => true

end Sys2Proof
end

