-- ==== Sys2Proof/Decode.lean ====
section
/-! DEFINITION. The decoder of 30_encoding.md R85, total on the 65,536 Words, the byte-level decoder around it, which
rejects a stream shorter than one Word by name, and the encoder written from the formats of R81. The rows of
spec/opcode_table.json stand here too (mask, match, ignored bits, canonical values), as data to hold the decoder against. -/

namespace Sys2Proof

/-! ### Fields -/

/-- A 3-bit register field names a register: every value is an index 0 to 7 (R82). -/
def regOf (f : BitVec 3) : RegIdx := ⟨f.toNat, f.isLt⟩

/-- The 3-bit field that names a register. -/
def regBits (r : RegIdx) : BitVec 3 := BitVec.ofNat 3 r.val

/-- instr[15:12] (00_scope.md R11). -/
def fieldOpcode (w : Word) : BitVec 4 := w.extractLsb' 12 4
/-- instr[11:9]: dr, or sr of a store. -/
def fieldR11 (w : Word) : RegIdx := regOf (w.extractLsb' 9 3)
/-- instr[8:6]: sr1, baseR, or sr of NOT. -/
def fieldR8 (w : Word) : RegIdx := regOf (w.extractLsb' 6 3)
/-- instr[2:0]: sr2. -/
def fieldR2 (w : Word) : RegIdx := regOf (w.extractLsb' 0 3)
/-- instr[11:9] as BR's condition mask. -/
def fieldCond (w : Word) : BitVec 3 := w.extractLsb' 9 3
/-- imm5 = instr[4:0]. -/
def fieldImm5 (w : Word) : BitVec 5 := w.extractLsb' 0 5
/-- offset6 = instr[5:0]. -/
def fieldOffset6 (w : Word) : BitVec 6 := w.extractLsb' 0 6
/-- pcoffset9 = instr[8:0]. -/
def fieldPcoffset9 (w : Word) : BitVec 9 := w.extractLsb' 0 9
/-- pcoffset11 = instr[10:0]. -/
def fieldPcoffset11 (w : Word) : BitVec 11 := w.extractLsb' 0 11
/-- trapvect8 = instr[7:0]. -/
def fieldTrapvect8 (w : Word) : BitVec 8 := w.extractLsb' 0 8
/-- The ADD/AND mode bit instr[5]. -/
def fieldImmMode (w : Word) : Bool := w.getLsbD 5
/-- The JSR/JSRR mode bit instr[11]. -/
def fieldJsrMode (w : Word) : Bool := w.getLsbD 11

/-! ### The decoder -/

/-- The opcode name a 4-bit number stands for: the inverse of the table OPC (R86). OPC is a bijection, so the search
always finds the name. -/
def opcodeOf (n : BitVec 4) : Opcode := (Opcode.all.find? (fun o => config.opc o == n)).getD .trap

/-- The Trap Handler's dispatch on the 8-bit vector (R85, 43_trap.md R140); an unrecognised vector goes to the
opcode-table row whose range holds it (R147). -/
def decodeTrap (v : BitVec 8) : Instr :=
  if v = 0x20 then .trapGetchar
  else if v = 0x21 then .trapOutputchar
  else if v = 0x22 then .trapPuts
  else if v = 0x23 then .trapIn
  else if v = 0x24 then .trapPutsp
  else if v = 0x25 then .trapHalt
  else if v.toNat ≤ 0x1F then .trapBad00to1F v
  else if v.toNat ≤ 0x27 then .trapBad26to27 v
  else if v.toNat ≤ 0x2F then .trapBad28to2F v
  else if v.toNat ≤ 0x3F then .trapBad30to3F v
  else if v.toNat ≤ 0x7F then .trapBad40to7F v
  else .trapBad80toFF v

/-- The decoder (R85): bits 15:12 select the handler, the handler cuts its own fields, no other bit is read (R87). -/
def decode (w : Word) : Instr :=
  match opcodeOf (fieldOpcode w) with
  | .br => .br (fieldCond w) (fieldPcoffset9 w)
  | .add =>
    if fieldImmMode w then .addImm (fieldR11 w) (fieldR8 w) (fieldImm5 w)
    else .addReg (fieldR11 w) (fieldR8 w) (fieldR2 w)
  | .ld => .ld (fieldR11 w) (fieldPcoffset9 w)
  | .st => .st (fieldR11 w) (fieldPcoffset9 w)
  | .jsr => if fieldJsrMode w then .jsr (fieldPcoffset11 w) else .jsrr (fieldR8 w)
  | .and =>
    if fieldImmMode w then .andImm (fieldR11 w) (fieldR8 w) (fieldImm5 w)
    else .andReg (fieldR11 w) (fieldR8 w) (fieldR2 w)
  | .ldr => .ldr (fieldR11 w) (fieldR8 w) (fieldOffset6 w)
  | .str => .str (fieldR11 w) (fieldR8 w) (fieldOffset6 w)
  | .rti => .rti
  | .not => .not (fieldR11 w) (fieldR8 w)
  | .ldi => .ldi (fieldR11 w) (fieldPcoffset9 w)
  | .sti => .sti (fieldR11 w) (fieldPcoffset9 w)
  | .jmp => .jmp (fieldR8 w)
  | .res => .res
  | .lea => .lea (fieldR11 w) (fieldPcoffset9 w)
  | .trap => decodeTrap (fieldTrapvect8 w)

/-- Why a byte stream gives no instruction. No Word is undecodable (R85), so the only reason is a missing byte. -/
inductive DecodeError where
  /-- fewer than the two bytes of one Word are there -/
  | truncated
  deriving DecidableEq, Repr

/-- The Word of a pair of stream bytes: the first is bits 15:8 (70_reset_and_hazards.md R204). -/
def wordOfBytes (h l : Byte) : Word := h ++ l

/-- Decode the first instruction of a byte stream in image order (big-endian, R204), with the bytes after it. -/
def decodeBytes : List Byte → Except DecodeError (Instr × List Byte)
  | h :: l :: rest => .ok (decode (wordOfBytes h l), rest)
  | _ => .error .truncated

/-- The instruction the decoder reads from the instruction whose bits are `w`, numbered as spec/opcode_table.json numbers
them, `nbits` of them given and every higher bit 0; none where more bits are given than an instruction has. -/
def decodeTableWord (nbits w : Nat) : Option Instr :=
  if nbits ≤ 16 then
    let word : Word := BitVec.ofNat 16 (w % 2 ^ nbits)
    match decodeBytes [word.extractLsb' 8 8, word.extractLsb' 0 8] with
    | .ok (i, _) => some i
    | .error _ => none
  else none

/-! ### The encoder -/

/-- Format RRR (R81), ignored bits at their canonical 0. -/
def encRRR (o : Opcode) (dr sr1 sr2 : RegIdx) : Word :=
  config.opc o ++ regBits dr ++ regBits sr1 ++ 0#1 ++ 0#2 ++ regBits sr2
/-- Format RRI. -/
def encRRI (o : Opcode) (dr sr1 : RegIdx) (imm5 : BitVec 5) : Word :=
  config.opc o ++ regBits dr ++ regBits sr1 ++ 1#1 ++ imm5
/-- Format RR (NOT), instr[5:0] at its canonical 0b111111 (R87). -/
def encRR (o : Opcode) (dr sr : RegIdx) : Word :=
  config.opc o ++ regBits dr ++ regBits sr ++ 0x3F#6
/-- Format BR. -/
def encBR (o : Opcode) (cond : BitVec 3) (pcoffset9 : BitVec 9) : Word :=
  config.opc o ++ cond ++ pcoffset9
/-- Format B (JMP). -/
def encB (o : Opcode) (baseR : RegIdx) : Word :=
  config.opc o ++ 0#3 ++ regBits baseR ++ 0#6
/-- Format J11 (JSR). -/
def encJ11 (o : Opcode) (pcoffset11 : BitVec 11) : Word :=
  config.opc o ++ 1#1 ++ pcoffset11
/-- Format JB (JSRR). -/
def encJB (o : Opcode) (baseR : RegIdx) : Word :=
  config.opc o ++ 0#1 ++ 0#2 ++ regBits baseR ++ 0#6
/-- Format RP9. -/
def encRP9 (o : Opcode) (r : RegIdx) (pcoffset9 : BitVec 9) : Word :=
  config.opc o ++ regBits r ++ pcoffset9
/-- Format RB6. -/
def encRB6 (o : Opcode) (r baseR : RegIdx) (offset6 : BitVec 6) : Word :=
  config.opc o ++ regBits r ++ regBits baseR ++ offset6
/-- Format T8 (TRAP). -/
def encT8 (v : BitVec 8) : Word := config.opc .trap ++ 0#4 ++ v
/-- Format NONE (RTI, RES). -/
def encNone (o : Opcode) : Word := config.opc o ++ 0#12

/-- The Word of an instruction (R81, R82), every ignored bit at the value the opcode table calls canonical. -/
def encode : Instr → Word
  | .addReg dr sr1 sr2 => encRRR .add dr sr1 sr2
  | .addImm dr sr1 imm5 => encRRI .add dr sr1 imm5
  | .andReg dr sr1 sr2 => encRRR .and dr sr1 sr2
  | .andImm dr sr1 imm5 => encRRI .and dr sr1 imm5
  | .not dr sr => encRR .not dr sr
  | .br cond off => encBR .br cond off
  | .jmp baseR => encB .jmp baseR
  | .jsr off => encJ11 .jsr off
  | .jsrr baseR => encJB .jsr baseR
  | .ld dr off => encRP9 .ld dr off
  | .ldi dr off => encRP9 .ldi dr off
  | .ldr dr baseR off => encRB6 .ldr dr baseR off
  | .lea dr off => encRP9 .lea dr off
  | .st sr off => encRP9 .st sr off
  | .sti sr off => encRP9 .sti sr off
  | .str sr baseR off => encRB6 .str sr baseR off
  | .trapGetchar => encT8 0x20
  | .trapOutputchar => encT8 0x21
  | .trapPuts => encT8 0x22
  | .trapIn => encT8 0x23
  | .trapPutsp => encT8 0x24
  | .trapHalt => encT8 0x25
  | .trapBad00to1F v => encT8 v
  | .trapBad26to27 v => encT8 v
  | .trapBad28to2F v => encT8 v
  | .trapBad30to3F v => encT8 v
  | .trapBad40to7F v => encT8 v
  | .trapBad80toFF v => encT8 v
  | .rti => encNone .rti
  | .res => encNone .res

/-! ### The rows of spec/opcode_table.json -/

/-- One row of the opcode table: a Word `w` is of the row when `w &&& mask = pattern`; `ignored` marks the bits no handler
reads and `canonical` holds their assembler values (R87). -/
structure TableRow where
  mask : Word
  pattern : Word
  ignored : Word
  canonical : Word
  deriving DecidableEq, Repr

/-- The Word is one of the row's. -/
def TableRow.covers (r : TableRow) (w : Word) : Bool := w &&& r.mask == r.pattern

/-- The opcode-table row of an instruction, as the table writes it. -/
def Instr.row : Instr → TableRow
  | .addReg _ _ _ => ⟨0xF020, 0x1000, 0x0018, 0⟩
  | .addImm _ _ _ => ⟨0xF020, 0x1020, 0, 0⟩
  | .andReg _ _ _ => ⟨0xF020, 0x5000, 0x0018, 0⟩
  | .andImm _ _ _ => ⟨0xF020, 0x5020, 0, 0⟩
  | .not _ _ => ⟨0xF000, 0x9000, 0x003F, 0x003F⟩
  | .br _ _ => ⟨0xF000, 0x0000, 0, 0⟩
  | .jmp _ => ⟨0xF000, 0xC000, 0x0E3F, 0⟩
  | .jsr _ => ⟨0xF800, 0x4800, 0, 0⟩
  | .jsrr _ => ⟨0xF800, 0x4000, 0x063F, 0⟩
  | .ld _ _ => ⟨0xF000, 0x2000, 0, 0⟩
  | .ldi _ _ => ⟨0xF000, 0xA000, 0, 0⟩
  | .ldr _ _ _ => ⟨0xF000, 0x6000, 0, 0⟩
  | .lea _ _ => ⟨0xF000, 0xE000, 0, 0⟩
  | .st _ _ => ⟨0xF000, 0x3000, 0, 0⟩
  | .sti _ _ => ⟨0xF000, 0xB000, 0, 0⟩
  | .str _ _ _ => ⟨0xF000, 0x7000, 0, 0⟩
  | .trapGetchar => ⟨0xF0FF, 0xF020, 0x0F00, 0⟩
  | .trapOutputchar => ⟨0xF0FF, 0xF021, 0x0F00, 0⟩
  | .trapPuts => ⟨0xF0FF, 0xF022, 0x0F00, 0⟩
  | .trapIn => ⟨0xF0FF, 0xF023, 0x0F00, 0⟩
  | .trapPutsp => ⟨0xF0FF, 0xF024, 0x0F00, 0⟩
  | .trapHalt => ⟨0xF0FF, 0xF025, 0x0F00, 0⟩
  | .trapBad00to1F _ => ⟨0xF0E0, 0xF000, 0x0F00, 0⟩
  | .trapBad26to27 _ => ⟨0xF0FE, 0xF026, 0x0F00, 0⟩
  | .trapBad28to2F _ => ⟨0xF0F8, 0xF028, 0x0F00, 0⟩
  | .trapBad30to3F _ => ⟨0xF0F0, 0xF030, 0x0F00, 0⟩
  | .trapBad40to7F _ => ⟨0xF0C0, 0xF040, 0x0F00, 0⟩
  | .trapBad80toFF _ => ⟨0xF080, 0xF080, 0x0F00, 0⟩
  | .rti => ⟨0xF000, 0x8000, 0x0FFF, 0⟩
  | .res => ⟨0xF000, 0xD000, 0x0FFF, 0⟩

end Sys2Proof
end

