-- ==== Sys2Proof/Machine/Memory.lean ====
section
/-! DEFINITION. The memory array of 10_state.md R27: 65,536 cells of one Word, at addresses 0 to 65535. It is held as a
list of (address, byte) pairs in one canonical form. The cell at address a is the two bytes at 2a (bits 15:8) and 2a + 1
(bits 7:0); no access moves less than a Word, so this order cannot be observed (20_memory.md R56; log 13). -/

namespace Sys2Proof.Machine

/-- A memory: (address, byte) pairs, addresses strictly rising, no byte equal to what an unlisted address reads as. -/
abbrev Memory := List Host.Cell

/-- What a byte nothing has written reads as: "Memory is zero-initialized at startup" (R35). -/
def unlistedByte : Byte := 0x00

/-- Two bytes a Word, 65,536 Words (00_scope.md R5 `MEM_WORDS`). -/
def memBytes : Nat := 2 * 65536

/-- Every listed address is above `lo`'s predecessors, rises strictly, and lists no unlisted value. -/
def Memory.wfFrom (lo : Nat) : Memory → Bool
  | [] => true
  | (a, b) :: rest => decide (lo ≤ a) && decide (a < memBytes) && b != unlistedByte && Memory.wfFrom (a + 1) rest

/-- The canonical form: addresses inside the address space, strictly rising, and no entry equal to what an unlisted
address reads as. -/
def Memory.wf (m : Memory) : Bool := Memory.wfFrom 0 m

/-- The byte at a byte address. -/
def Memory.byteAt : Memory → Nat → Byte
  | [], _ => unlistedByte
  | (k, b) :: rest, a => if k = a then b else Memory.byteAt rest a

/-- Put a byte before a list whose addresses are above it, unless it is what an unlisted address reads as. -/
def Memory.consByte (a : Nat) (v : Byte) (m : Memory) : Memory := if v = unlistedByte then m else (a, v) :: m

/-- Write one byte, keeping the canonical form. -/
def Memory.setByte : Memory → Nat → Byte → Memory
  | [], a, v => Memory.consByte a v []
  | (k, b) :: rest, a, v =>
    if a < k then Memory.consByte a v ((k, b) :: rest)
    else if a = k then Memory.consByte a v rest
    else (k, b) :: Memory.setByte rest a v

/-- `mem[a]` (00_scope.md R9): the stored Word of cell `a`, with no side effect. -/
def Memory.cell (m : Memory) (a : Word) : Word := m.byteAt (2 * a.toNat) ++ m.byteAt (2 * a.toNat + 1)

/-- `mem[a] <- v`: store one Word, with no side effect. -/
def Memory.store (m : Memory) (a : Word) (v : Word) : Memory :=
  (m.setByte (2 * a.toNat) (v.extractLsb' 8 8)).setByte (2 * a.toNat + 1) (v.extractLsb' 0 8)

end Sys2Proof.Machine
end

