-- ==== Sys2Proof/Machine/State.lean ====
section
/-! DEFINITION. Everything the spec gives the machine (10_state.md), and the environment's part that a model must carry
(R29), as plain data; the reasons a step can stop; the state after reset. -/

namespace Sys2Proof.Machine

/-- Which of the two unimplemented opcodes was executed (10_state.md R28). -/
inductive FatalOpcodeName where
  | rti | res
  deriving DecidableEq, Repr

/-- The cause of the run state FATAL (R28, 60_exceptions.md R180). Symbolic: the hardware has no cause numbers (R184). -/
inductive FatalCause where
  /-- RTI or RES was executed (R150, R151) -/
  | fatalOpcode (name : FatalOpcodeName)
  /-- TRAP was executed with a vector outside 0x20 to 0x25 (R147) -/
  | fatalTrapVector (v : BitVec 8)
  deriving DecidableEq, Repr

/-- The run state (R28). -/
inductive RunState where
  | running
  | halted
  | fatal (cause : FatalCause)
  deriving DecidableEq, Repr

/-- One call of InReady(), from the environment's side (R29, R30; log 8). -/
structure PollAnswer where
  /-- the bytes that reach the input queue after the call before this one and before this one looks; an arrival inside an
  instruction is one of these, since the core sees input nowhere else inside one (log 10) -/
  arrived : List Byte
  /-- the answer, while a byte is pending -/
  ready : Bool
  deriving DecidableEq, Repr

/-- The state of the core and of its console environment. -/
structure State where
  /-- the eight general registers (R20) -/
  x : Vector Word 8
  /-- the program counter (R22) -/
  pc : Word
  /-- the condition-flags register: one of the three flag Words (R24) -/
  cond : Word
  /-- the memory array; two of its cells are the console's status and data registers (R27, R33) -/
  mem : Memory
  /-- the run state (R28) -/
  run : RunState
  /-- environment: input bytes available and not yet consumed, oldest first (R29) -/
  inq : List Byte
  /-- environment: output bytes written so far, in order (R29) -/
  out : List Byte
  /-- environment: its coming answers to InReady(), next first (R30, 45_execution_loop.md R166; log 8) -/
  polls : List PollAnswer
  /-- environment: when it never stops sending, the byte that reaches the queue before every call of InReady() after those
  `polls` lists, each answered ready (R29: "may append to it at any time"; log 10) -/
  feed : Option Byte
  /-- the model's own counter of free InReady() answers, drawn after `polls` ran out and with no `feed` (log 8) -/
  draws : Nat
  deriving DecidableEq, Repr

/-- Why a step answers no next state. None of these is an instruction without a meaning: a FATAL instruction takes its
effect, and the fault is the step that does not exist afterwards. -/
inductive Fault where
  /-- `step`, from run = HALTED: "no further instructions are fetched" (R161). The normal end of a run (R162). Safe. -/
  | halted
  /-- `step`, from run = FATAL(cause): no step exists (R161); the run has gone wrong (R183). Safe. -/
  | fatal (cause : FatalCause)
  /-- GETCHAR and IN, with no input pending: the instruction waits, no core state changes, and no step exists until the
  environment appends a byte (10_state.md R31, R164). Not an error and not an end. `out` is what the console shows
  meanwhile: IN's prompt is already in it (R144, D9). Safe: nothing follows from a step that is not taken (log 9). -/
  | blockedOnInput (out : List Byte)
  /-- PUTS and PUTSP, exactly when the scan has no end: "the routine never ends (a hang, not a fault)" (R143), a legal
  infinite execution (45_execution_loop.md R163) with no next step. It takes an environment that never stops sending,
  because a status read with no input ready ends every scan. Safe: nothing follows from a step that is not taken (log 11). -/
  | stringNeverEnds
  deriving DecidableEq, Repr

/-- Why an instruction has no meaning. Every instruction of this model has one. -/
inductive Refusal where
  /-- raised by `exec` for an instruction not modelled yet. Safe. -/
  | notModelled (mnemonic : String)
  deriving DecidableEq, Repr

/-- What a handler answers. -/
abbrev Result := Host.Outcome State Fault Refusal

/-- The machine right after reset (R35): registers zero, pc at PC_START, flags ZERO, memory all zero (no image has covered
a cell), RUNNING, no output. The environment's input, its answers and the model's counter start empty (DESIGN CHOICE,
log 15). `State.resetWith` (Machine/Loader.lean) is reset with images. -/
def State.reset : State where
  x := Vector.replicate 8 0x0000
  pc := pcStart
  cond := config.flZro
  mem := []
  run := .running
  inq := []
  out := []
  polls := []
  feed := none
  draws := 0

end Sys2Proof.Machine
end

