-- ==== Sys2Proof/Machine/Flags.lean ====
section
/-! DEFINITION. The one flag computation of the machine: setcc (10_state.md R25). -/

namespace Sys2Proof.Machine

/-- The flag Word of a result: "value == 0 → ZERO; high bit set → NEGATIVE; else POSITIVE" (R25). -/
def flagOf (v : Word) : Word :=
  if v = 0x0000 then config.flZro
  else if v.getLsbD 15 then config.flNeg
  else config.flPos

/-- `setcc(v)` (R25). -/
def State.setcc (s : State) (v : Word) : State := { s with cond := flagOf v }

/-- BR's test: the 3-bit mask as a number, ANDed with the flags register, is not zero (41_control.md R120). -/
def State.condMet (s : State) (mask : BitVec 3) : Bool := mask.setWidth 16 &&& s.cond != 0x0000

end Sys2Proof.Machine
end

