-- ==== Sys2Proof/Machine/Ops.lean ====
section
/-! DEFINITION. The named operations of the machine, after the pseudocode primitives of 00_scope.md R9: registers, console,
memory, the fetch, the trap entry and the fatal conditions. -/

namespace Sys2Proof.Machine

/-! ### Registers -/

/-- `x[i]` (10_state.md R20). -/
def State.reg (s : State) (i : RegIdx) : Word := s.x[i.val]

/-- `x[i] <- v`: changes `x[i]` only, not the flags (R20). -/
def State.setReg (s : State) (i : RegIdx) (v : Word) : State := { s with x := s.x.set i.val v i.isLt }

/-- `x[i] <- v; setcc(x[i])`: what every instruction of R26's list ends with. -/
def State.setRegCC (s : State) (i : RegIdx) (v : Word) : State := (s.setReg i v).setcc v

/-- `pc <- v`. -/
def State.setPc (s : State) (v : Word) : State := { s with pc := v }

/-! ### Console (10_state.md R29 to R32) -/

/-- The environment appends input bytes between two steps (R29; log 10). No core state changes. -/
def State.receive (s : State) (bytes : List Byte) : State := { s with inq := s.inq ++ bytes }

/-- The environment settles what it will send and answer from here on, inside instructions too (R29, R30; log 10). No core
state changes. -/
def State.plan (s : State) (polls : List PollAnswer) (feed : Option Byte) : State := { s with polls := polls, feed := feed }

/-- What the environment has sent by the time of the next InReady() call reaches the queue (R29; log 10). -/
def State.arrive (s : State) : State :=
  match s.polls, s.feed with
  | p :: rest, _ => { s with inq := s.inq ++ p.arrived, polls := { p with arrived := [] } :: rest }
  | [], some b => { s with inq := s.inq ++ [b] }
  | [], none => s

/-- `InReady()` (R30): the environment's next answer (true while it feeds without end, a free one when none is listed and
none is fed), under the one constraint that it is false when no byte is pending. It changes neither `inq` nor `out`. -/
def State.inReady (s : State) : Bool × State :=
  match s.polls, s.feed with
  | p :: rest, _ => (!s.inq.isEmpty && p.ready, { s with polls := rest })
  | [], some _ => (!s.inq.isEmpty, s)
  | [], none => (!s.inq.isEmpty && Config.inReadyDraw s.draws, { s with draws := s.draws + 1 })

/-- `InByte()` (R31): removes and returns the oldest byte; none while there is no byte, where it blocks. -/
def State.inByte (s : State) : Option (Byte × State) :=
  match s.inq with
  | [] => none
  | b :: rest => some (b, { s with inq := rest })

/-- `OutByte(b)` (R32). -/
def State.outByte (s : State) (b : Byte) : State := { s with out := s.out ++ [b] }

/-- `OutByte` of each byte in order. -/
def State.outBytes (s : State) (bytes : List Byte) : State := { s with out := s.out ++ bytes }

/-! ### Memory (20_memory.md R52 to R55) -/

/-- `MemWrite(a, 1, v)` (R55): plain storage at every address. -/
def State.memWrite (s : State) (a v : Word) : State := { s with mem := s.mem.store a v }

/-- The poll every read of the status address performs (R53), on the input that has arrived by then. A ready answer comes
only with a pending byte, so the InByte() after it never blocks. -/
def State.poll (s : State) : State :=
  match s.arrive.inReady with
  | (true, s1) =>
    match s1.inByte with
    | some (b, s2) => (s2.memWrite config.kbsrAddr 0x8000).memWrite config.kbdrAddr (b.setWidth 16)
    | none => s1.memWrite config.kbsrAddr 0x0000
  | (false, s1) => s1.memWrite config.kbsrAddr 0x0000

/-- `MemRead(a, 1)` (R52): the Word read, and the state after the read's side effect. -/
def State.memRead (s : State) (a : Word) : Word × State :=
  if a = config.kbsrAddr then (s.poll.mem.cell a, s.poll) else (s.mem.cell a, s)

/-- Fetch (45_execution_loop.md R160): read the Word at pc through MemRead, then increment pc, modulo 2^16. -/
def State.fetch (s : State) : Word × State :=
  let (w, s1) := s.memRead s.pc
  (w, s1.setPc (s1.pc + 1))

/-! ### Trap entry and fatal conditions (60_exceptions.md R181, R182, R185) -/

/-- The link write `x[7] <- pc` of JSR, JSRR and TRAP: the incremented pc, flags not touched (10_state.md R26). It is all
the state a trap saves (R185): no mode, no mask, no stack, no vector. There is no return operation beside it: when the
service routine ends the instruction ends, pc is untouched, and the next step fetches the Word after the TRAP. -/
def State.link (s : State) : State := s.setReg linkReg s.pc

/-- `raise` a fatal condition (R181, R182): the run state becomes FATAL(cause); nothing is saved, entered or written. -/
def State.raise (s : State) (cause : FatalCause) : State := { s with run := .fatal cause }

/-- `run <- HALTED` (43_trap.md R146). -/
def State.halt (s : State) : State := { s with run := .halted }

end Sys2Proof.Machine
end

