-- ==== Sys2Proof/Machine/Operands.lean ====
section
/-! DEFINITION. Every operand form: immediates and offsets (30_encoding.md R82) and effective addresses
(42_load_store.md R137). In all of them pc is the incremented pc (00_scope.md R10) and sums wrap modulo 2^16
(20_memory.md R51). -/

namespace Sys2Proof.Machine

/-- `sext_w(f)` (00_scope.md R8): bit w-1 fills bits w to 15. -/
def sext {w : Nat} (f : BitVec w) : Word := f.signExtend 16

/-- `zext_8(b)` (R8): bits 15:8 are zero. -/
def zext8 (b : Byte) : Word := b.setWidth 16

/-- The low byte `w[7:0]`. -/
def lowByte (w : Word) : Byte := w.extractLsb' 0 8

/-- The high byte `w[15:8]`. -/
def highByte (w : Word) : Byte := w.extractLsb' 8 8

/-- pc-relative: `pc + sext_9(pcoffset9)`, of BR, LD, LDI, LEA, ST, STI. -/
def State.pcRel9 (s : State) (pcoffset9 : BitVec 9) : Word := s.pc + sext pcoffset9

/-- `pc + sext_11(pcoffset11)`, of JSR. -/
def State.pcRel11 (s : State) (pcoffset11 : BitVec 11) : Word := s.pc + sext pcoffset11

/-- Base plus offset: `x[baseR] + sext_6(offset6)`, of LDR and STR. -/
def State.baseOffset (s : State) (baseR : RegIdx) (offset6 : BitVec 6) : Word := s.reg baseR + sext offset6

/-- Indirect (LDI, STI): the pointer is read through MemRead, which may poll; the address, and the state after it. -/
def State.indirect (s : State) (pcoffset9 : BitVec 9) : Word × State := s.memRead (s.pcRel9 pcoffset9)

end Sys2Proof.Machine
end

