-- ==== Sys2Proof/Machine/Alu.lean ====
section
/-! DEFINITION. ADD, AND, NOT (40_alu.md). All sources are read before dr is written; sums wrap (R115). -/

namespace Sys2Proof.Machine

/-- ADD, register mode (R110). -/
def execAddReg (dr sr1 sr2 : RegIdx) (s : State) : Result := .next (s.setRegCC dr (s.reg sr1 + s.reg sr2))

/-- ADD, immediate mode (R111). -/
def execAddImm (dr sr1 : RegIdx) (imm5 : BitVec 5) (s : State) : Result := .next (s.setRegCC dr (s.reg sr1 + sext imm5))

/-- AND, register mode (R112). -/
def execAndReg (dr sr1 sr2 : RegIdx) (s : State) : Result := .next (s.setRegCC dr (s.reg sr1 &&& s.reg sr2))

/-- AND, immediate mode, the immediate sign-extended (R113, 90_conflicts.md C7). -/
def execAndImm (dr sr1 : RegIdx) (imm5 : BitVec 5) (s : State) : Result :=
  .next (s.setRegCC dr (s.reg sr1 &&& sext imm5))

/-- NOT (R114). -/
def execNot (dr sr : RegIdx) (s : State) : Result := .next (s.setRegCC dr (~~~ s.reg sr))

end Sys2Proof.Machine
end

