-- ==== Sys2Proof/Machine/Control.lean ====
section
/-! DEFINITION. BR, JMP, JSR, JSRR (41_control.md). None touches the flags or memory (R124). -/

namespace Sys2Proof.Machine

/-- BR (R120). -/
def execBr (mask : BitVec 3) (pcoffset9 : BitVec 9) (s : State) : Result :=
  .next (if s.condMet mask then s.setPc (s.pcRel9 pcoffset9) else s)

/-- JMP (R121). -/
def execJmp (baseR : RegIdx) (s : State) : Result := .next (s.setPc (s.reg baseR))

/-- JSR (R122): the target is relative to the pc just saved. -/
def execJsr (pcoffset11 : BitVec 11) (s : State) : Result := .next (s.link.setPc (s.link.pcRel11 pcoffset11))

/-- JSRR (R123): x[baseR] is read AFTER the link write, so JSRR R7 falls through. -/
def execJsrr (baseR : RegIdx) (s : State) : Result := .next (s.link.setPc (s.link.reg baseR))

end Sys2Proof.Machine
end

