-- ==== Sys2Proof/Machine/LoadStore.lean ====
section
/-! DEFINITION. LD, LDI, LDR, LEA, ST, STI, STR (42_load_store.md). Every read goes through MemRead (20_memory.md R67);
loads set the flags from the loaded Word, LEA from the address, stores leave them alone. -/

namespace Sys2Proof.Machine

/-- `x[dr] <- MemRead(ea, 1); setcc(x[dr])`: the common end of LD, LDI and LDR. -/
def State.loadInto (s : State) (dr : RegIdx) (ea : Word) : State :=
  let (w, s1) := s.memRead ea
  s1.setRegCC dr w

/-- LD (R130). -/
def execLd (dr : RegIdx) (pcoffset9 : BitVec 9) (s : State) : Result := .next (s.loadInto dr (s.pcRel9 pcoffset9))

/-- LDI (R131): the pointer read, then the datum read. -/
def execLdi (dr : RegIdx) (pcoffset9 : BitVec 9) (s : State) : Result :=
  let (ea, s1) := s.indirect pcoffset9
  .next (s1.loadInto dr ea)

/-- LDR (R132). -/
def execLdr (dr baseR : RegIdx) (offset6 : BitVec 6) (s : State) : Result :=
  .next (s.loadInto dr (s.baseOffset baseR offset6))

/-- LEA (R133): no memory access. -/
def execLea (dr : RegIdx) (pcoffset9 : BitVec 9) (s : State) : Result := .next (s.setRegCC dr (s.pcRel9 pcoffset9))

/-- ST (R134). -/
def execSt (sr : RegIdx) (pcoffset9 : BitVec 9) (s : State) : Result :=
  .next (s.memWrite (s.pcRel9 pcoffset9) (s.reg sr))

/-- STI (R135): the pointer read, then the write. -/
def execSti (sr : RegIdx) (pcoffset9 : BitVec 9) (s : State) : Result :=
  let (ea, s1) := s.indirect pcoffset9
  .next (s1.memWrite ea (s1.reg sr))

/-- STR (R136). -/
def execStr (sr baseR : RegIdx) (offset6 : BitVec 6) (s : State) : Result :=
  .next (s.memWrite (s.baseOffset baseR offset6) (s.reg sr))

end Sys2Proof.Machine
end

