-- ==== Sys2Proof/Machine/Reserved.lean ====
section
/-! DEFINITION. RTI and RES, the unimplemented opcodes (44_reserved.md): each ends the run in FATAL. The state at the raise
is kept (R152). -/

namespace Sys2Proof.Machine

/-- RTI (R150). -/
def execRti (s : State) : Result := .next (s.raise (.fatalOpcode .rti))

/-- RES (R151). -/
def execRes (s : State) : Result := .next (s.raise (.fatalOpcode .res))

end Sys2Proof.Machine
end

