-- ==== Sys2Proof/Machine/Trap.lean ====
section
/-! DEFINITION. TRAP and its six service routines (43_trap.md). Each links first (R140); none changes pc; each completes
inside the one instruction. -/

namespace Sys2Proof.Machine

/-- The string scan PUTS and PUTSP share (R143, R145): read the Word at `a` through MemRead, stop at a zero Word, else
write its bytes and go on at a + 1, which wraps. `fuel` bounds the reads; none when it runs out. -/
def State.writeString (s : State) (bytesOf : Word → List Byte) (fuel : Nat) (a : Word) : Option State :=
  match fuel with
  | 0 => none
  | n + 1 =>
    match s.memRead a with
    | (w, s1) => if w = 0x0000 then some s1 else State.writeString (s1.outBytes (bytesOf w)) bytesOf n (a + 1)

/-- The bytes pending, and those the environment's listed answers bring. -/
def State.coming (s : State) : Nat := s.inq.length + (s.polls.map (·.arrived.length)).sum

/-- A scan that has made so many reads never ends, and every other one has ended (`writeString_forever`, Laws/Scan.lean;
log 11). One lap of the address space meets the status address once, and each lap but the last takes a byte there. Without an
endless feed no byte is left after `coming` laps. With one, the laps after `polls` and `inq` are used up are all alike. -/
def State.scanFuel (s : State) : Nat := 65536 * (s.polls.length + s.coming + 3)

/-- Run the scan from x[0]; x[0] is not changed (R143). -/
def State.putString (s : State) (bytesOf : Word → List Byte) : Result :=
  match s.writeString bytesOf s.scanFuel (s.reg trapReg) with
  | some t => .next t
  | none => .fault .stringNeverEnds

/-- PUTS writes the low byte of each Word (R143). -/
def putsBytes (w : Word) : List Byte := [lowByte w]

/-- PUTSP writes the low byte always, then the high byte if it is not zero (R145). -/
def putspBytes (w : Word) : List Byte := if highByte w = 0x00 then [lowByte w] else [lowByte w, highByte w]

/-- `x[0] <- zext_8(b); setcc(x[0])`: the common end of GETCHAR and IN. -/
def State.deliver (s : State) (b : Byte) : State := s.setRegCC trapReg (zext8 b)

/-- GETCHAR (R141): blocks until a byte is available; no echo. -/
def execTrapGetchar (s : State) : Result :=
  match s.link.inByte with
  | some (b, s1) => .next (s1.deliver b)
  | none => .fault (.blockedOnInput s.link.out)

/-- OUTPUTCHAR (R142): the low byte of x[0]. -/
def execTrapOutputchar (s : State) : Result := .next (s.link.outByte (lowByte (s.link.reg trapReg)))

/-- PUTS (R143). -/
def execTrapPuts (s : State) : Result := s.link.putString putsBytes

/-- IN (R144): prompt, read (which blocks), echo, store. -/
def execTrapIn (s : State) : Result :=
  match (s.link.outBytes config.inPrompt).inByte with
  | some (b, s1) => .next ((s1.outByte b).deliver b)
  | none => .fault (.blockedOnInput (s.link.outBytes config.inPrompt).out)

/-- PUTSP (R145). -/
def execTrapPutsp (s : State) : Result := s.link.putString putspBytes

/-- HALT (R146): the notice, then run <- HALTED. -/
def execTrapHalt (s : State) : Result := .next (s.link.outBytes config.haltNotice).halt

/-- Any other vector (R147): the link has happened, then FatalTrapVector. -/
def State.badVector (s : State) (v : BitVec 8) : State := s.link.raise (.fatalTrapVector v)

/-- TRAP, vectors 0x00 to 0x1F (R147). -/
def execTrapBad00to1F (v : BitVec 8) (s : State) : Result := .next (s.badVector v)

/-- TRAP, vectors 0x26 to 0x27 (R147). -/
def execTrapBad26to27 (v : BitVec 8) (s : State) : Result := .next (s.badVector v)

/-- TRAP, vectors 0x28 to 0x2F (R147). -/
def execTrapBad28to2F (v : BitVec 8) (s : State) : Result := .next (s.badVector v)

/-- TRAP, vectors 0x30 to 0x3F (R147). -/
def execTrapBad30to3F (v : BitVec 8) (s : State) : Result := .next (s.badVector v)

/-- TRAP, vectors 0x40 to 0x7F (R147). -/
def execTrapBad40to7F (v : BitVec 8) (s : State) : Result := .next (s.badVector v)

/-- TRAP, vectors 0x80 to 0xFF (R147). -/
def execTrapBad80toFF (v : BitVec 8) (s : State) : Result := .next (s.badVector v)

end Sys2Proof.Machine
end

