-- ==== Sys2Proof/Machine/Dispatch.lean ====
section
/-! DEFINITION. The dispatch of 30_encoding.md R85: one arm per instruction. pc has already been incremented
(00_scope.md R10). -/

namespace Sys2Proof.Machine

def exec (i : Instr) (s : State) : Host.Outcome State Fault Refusal :=
  match i with
  | .addReg dr sr1 sr2 => Sys2Proof.Machine.execAddReg dr sr1 sr2 s
  | .addImm dr sr1 imm5 => Sys2Proof.Machine.execAddImm dr sr1 imm5 s
  | .andReg dr sr1 sr2 => Sys2Proof.Machine.execAndReg dr sr1 sr2 s
  | .andImm dr sr1 imm5 => Sys2Proof.Machine.execAndImm dr sr1 imm5 s
  | .not dr sr => Sys2Proof.Machine.execNot dr sr s
  | .br cond pcoffset9 => Sys2Proof.Machine.execBr cond pcoffset9 s
  | .jmp baseR => Sys2Proof.Machine.execJmp baseR s
  | .jsr pcoffset11 => Sys2Proof.Machine.execJsr pcoffset11 s
  | .jsrr baseR => Sys2Proof.Machine.execJsrr baseR s
  | .ld dr pcoffset9 => Sys2Proof.Machine.execLd dr pcoffset9 s
  | .ldi dr pcoffset9 => Sys2Proof.Machine.execLdi dr pcoffset9 s
  | .ldr dr baseR offset6 => Sys2Proof.Machine.execLdr dr baseR offset6 s
  | .lea dr pcoffset9 => Sys2Proof.Machine.execLea dr pcoffset9 s
  | .st sr pcoffset9 => Sys2Proof.Machine.execSt sr pcoffset9 s
  | .sti sr pcoffset9 => Sys2Proof.Machine.execSti sr pcoffset9 s
  | .str sr baseR offset6 => Sys2Proof.Machine.execStr sr baseR offset6 s
  | .trapGetchar => Sys2Proof.Machine.execTrapGetchar s
  | .trapOutputchar => Sys2Proof.Machine.execTrapOutputchar s
  | .trapPuts => Sys2Proof.Machine.execTrapPuts s
  | .trapIn => Sys2Proof.Machine.execTrapIn s
  | .trapPutsp => Sys2Proof.Machine.execTrapPutsp s
  | .trapHalt => Sys2Proof.Machine.execTrapHalt s
  | .trapBad00to1F trapvect8 => Sys2Proof.Machine.execTrapBad00to1F trapvect8 s
  | .trapBad26to27 trapvect8 => Sys2Proof.Machine.execTrapBad26to27 trapvect8 s
  | .trapBad28to2F trapvect8 => Sys2Proof.Machine.execTrapBad28to2F trapvect8 s
  | .trapBad30to3F trapvect8 => Sys2Proof.Machine.execTrapBad30to3F trapvect8 s
  | .trapBad40to7F trapvect8 => Sys2Proof.Machine.execTrapBad40to7F trapvect8 s
  | .trapBad80toFF trapvect8 => Sys2Proof.Machine.execTrapBad80toFF trapvect8 s
  | .rti => Sys2Proof.Machine.execRti s
  | .res => Sys2Proof.Machine.execRes s

end Sys2Proof.Machine
end

