-- ==== Sys2Proof/Machine/Step.lean ====
section
/-! DEFINITION. One step of the core (45_execution_loop.md R160), defined only when run = RUNNING (R161). -/

namespace Sys2Proof.Machine

/-- Fetch, increment pc, execute the one handler the decoder selects (R160). From HALTED and FATAL no step exists. -/
def step (s : State) : Host.Outcome State Fault Refusal :=
  match s.run with
  | .running => exec (decode s.fetch.1) s.fetch.2
  | .halted => .fault .halted
  | .fatal cause => .fault (.fatal cause)

/-- `s` with the instruction whose bits are `w` (`nbits` of them, every higher bit 0) in the cell the next step fetches,
and nothing else changed. At pc = KBSR_ADDR a fetch polls first (20_memory.md R67), so no stored Word is fetched there. -/
def State.withFetchWord (s : State) (nbits w : Nat) : State :=
  s.memWrite s.pc (BitVec.ofNat 16 (w % 2 ^ nbits))

end Sys2Proof.Machine
end

