-- ==== Sys2Proof/Machine/Loader.lean ====
section
/-! DEFINITION. The image loader and the reset sequence (70_reset_and_hazards.md R200 to R207). -/

namespace Sys2Proof.Machine

/-- A stream handed to the loader: a finite byte sequence, or one that cannot be opened (R203). -/
inductive ImageStream where
  | bytes (b : List Byte)
  | unopenable
  deriving DecidableEq, Repr

/-- The two causes of ImageError (R207, 90_conflicts.md C4). -/
inductive ImageCause where
  /-- the stream cannot be opened -/
  | openFailed
  /-- fewer than the two bytes of the origin header -/
  | header
  deriving DecidableEq, Repr

/-- `ImageError(j, cause)`: j is the index of the failing image (R207). -/
structure ImageError where
  index : Nat
  cause : ImageCause
  deriving DecidableEq, Repr

/-- The whole payload Words of a byte sequence, big-endian (R204); a trailing odd byte is dropped (R205, D11). -/
def payloadWords : List Byte → List Word
  | h :: l :: rest => wordOfBytes h l :: payloadWords rest
  | _ => []

/-- Plain stores of the Words at `a`, a + 1, ..., stopping at the address-space boundary: no wrap (R205). -/
def storeWords : Nat → List Word → Memory → Memory
  | _, [], m => m
  | a, w :: ws, m => if a < 65536 then storeWords (a + 1) ws (m.store (BitVec.ofNat 16 a) w) else m

/-- `LoadImage(b)` (R205). -/
def loadImage (m : Memory) : ImageStream → Except ImageCause Memory
  | .unopenable => .error .openFailed
  | .bytes (h :: l :: payload) => .ok (storeWords (wordOfBytes h l).toNat (payloadWords payload) m)
  | .bytes _ => .error .header

/-- Step 2 of the reset sequence: the images in list order into the same memory, `j` the index of the next one; the first
that fails ends it, and later images are not loaded (R200, R206, R207). -/
def loadImages (j : Nat) : List ImageStream → Memory → Except ImageError Memory
  | [], m => .ok m
  | img :: rest, m =>
    match loadImage m img with
    | .ok m1 => loadImages (j + 1) rest m1
    | .error c => .error { index := j, cause := c }

/-- The reset sequence (R200) with a non-empty list of images, applied to a core in any state: everything of the core is
new, `out` is empty, and the environment's input and answers are kept (R35, R201, D12). -/
def State.resetWith (s : State) (first : ImageStream) (rest : List ImageStream) : Except ImageError State :=
  match loadImages 0 (first :: rest) [] with
  | .ok m => .ok { State.reset with mem := m, inq := s.inq, polls := s.polls, feed := s.feed, draws := s.draws }
  | .error e => .error e

end Sys2Proof.Machine
end

