-- ==== Sys2Proof/Safety.lean ====
section
/-! DEFINITION. What counts as a legal state, a run, a normal end and a safe run, in the terms claims use. -/

namespace Sys2Proof.Machine

/-- `cond` is exactly one of the three flag Words (10_state.md R24, R36 (b)). -/
def State.condLegal (s : State) : Bool :=
  s.cond == config.flPos || s.cond == config.flZro || s.cond == config.flNeg

/-- The fatal cause, if there is one, is one an instruction can raise: the vector is outside 0x20 to 0x25 (R28). -/
def State.runLegal (s : State) : Bool :=
  match s.run with
  | .fatal (.fatalTrapVector v) => decide (v.toNat < 0x20) || decide (0x25 < v.toNat)
  | _ => true

/-- The invariant of the machine at every instruction boundary (R36 (b), (d) and the run states of R28): memory keeps its
canonical form inside its 65,536 cells, the flags are one of the three, the fatal cause is a legal one. -/
abbrev State.Inv (s : State) : Prop := s.mem.wf = true ∧ s.condLegal = true ∧ s.runLegal = true

/-- What can happen from one instruction boundary to the next: one step of the core, the environment appending input, or the
environment settling what it sends and answers inside the instructions to come (10_state.md R29, R30; log 10). -/
inductive Move : State → State → Prop where
  | core {s t : State} (h : step s = .next t) : Move s t
  | input (s : State) (bytes : List Byte) : Move s (s.receive bytes)
  | plan (s : State) (polls : List PollAnswer) (feed : Option Byte) : Move s (s.plan polls feed)

/-- The states reachable from `s`, for every behaviour of the environment. The host may stop a run after any of them
(45_execution_loop.md R167; log 17). -/
inductive Reach (s : State) : State → Prop where
  | refl : Reach s s
  | tail {t u : State} (h : Reach s t) (m : Move t u) : Reach s u

/-- A run ends normally exactly in HALTED (R162). -/
def State.EndedNormally (s : State) : Prop := s.run = .halted

/-- The run has gone wrong: FATAL is a fault, never a normal end (R183). -/
def State.GoneWrong (s : State) : Prop := ∃ cause, s.run = .fatal cause

/-- The core waits for input: stuck, neither final nor wrong, until the environment appends (R164). -/
def State.Waiting (s : State) : Prop := ∃ out, step s = .fault (.blockedOnInput out)

/-- A safe start: no behaviour of the environment leads the run to FATAL (R183). -/
def State.Safe (s : State) : Prop := ∀ t, Reach s t → ¬ t.GoneWrong

end Sys2Proof.Machine
end

