-- ==== Sys2Proof/Certificates/Slice0/Obligations.lean ====
section
/-! DEFINITION. The statements about the model, for the provers. The vocabulary they share stands first, in the spec's words
and away from the model's own helpers. An instruction's statement has two parts: which Words select it (the slices of R7), and
its whole effect on every state: the result, the flags, and what stays as it was. -/

namespace Sys2Proof.Claims

open Sys2Proof.Machine

/-! ### Vocabulary -/

/-- `v[hi:lo]` as a number: `(v >> lo) mod 2^(hi-lo+1)` (00_scope.md R7). -/
def slice (w : Word) (hi lo : Nat) : Nat := w.toNat / 2 ^ lo % 2 ^ (hi - lo + 1)

/-- The opcode field of `w` holds the number of the name `o` (R85). -/
abbrev HasOpcode (w : Word) (o : Opcode) : Prop := slice w 15 12 = (config.opc o).toNat

/-- `c` is the flag Word that describes the signed value of `v` (10_state.md R25, R36). -/
def FlagsOf (v c : Word) : Prop :=
  (v.toInt = 0 → c = config.flZro) ∧ (v.toInt < 0 → c = config.flNeg) ∧ (0 < v.toInt → c = config.flPos)

/-- Every cell of memory reads as before. -/
def SameCells (s t : State) : Prop := ∀ a, t.mem.cell a = s.mem.cell a

/-- The console's input, what has arrived and what the environment has settled, is untouched. -/
def SameInput (s t : State) : Prop := t.inq = s.inq ∧ t.polls = s.polls ∧ t.feed = s.feed ∧ t.draws = s.draws

/-- The bytes the environment sends before the next call of InReady() looks (10_state.md R29; log 10). -/
def arriving (s : State) : List Byte :=
  match s.polls with
  | p :: _ => p.arrived
  | [] => s.feed.toList

/-- What arrives in `k` listed polls and `n` polls after the listed ones. -/
def arrivals (s : State) (k n : Nat) : List Byte :=
  (s.polls.take k).flatMap (·.arrived) ++ s.feed.toList.flatMap (List.replicate n)

/-- Every register but those listed reads as before. -/
def SameRegsBut (s t : State) (written : List RegIdx) : Prop := ∀ j, j ∉ written → t.reg j = s.reg j

/-- `x[dr] <- v; setcc(x[dr])` and nothing else. -/
def WritesResult (s t : State) (dr : RegIdx) (v : Word) : Prop :=
  t.reg dr = v ∧ FlagsOf v t.cond ∧ SameRegsBut s t [dr] ∧ t.pc = s.pc ∧ SameCells s t ∧ t.run = s.run ∧
    t.out = s.out ∧ SameInput s t

/-- `x[dr] <- MemRead(ea, 1); setcc(x[dr])` and nothing else: memory and input are as the read leaves them. -/
def LoadsFrom (s t : State) (dr : RegIdx) (ea : Word) : Prop :=
  t.reg dr = (s.memRead ea).1 ∧ FlagsOf (s.memRead ea).1 t.cond ∧ SameRegsBut s t [dr] ∧ t.pc = s.pc ∧
    SameCells (s.memRead ea).2 t ∧ t.run = s.run ∧ t.out = s.out ∧ SameInput (s.memRead ea).2 t

/-- `mem[ea] <- v` and nothing else. -/
def StoresAt (s t : State) (ea v : Word) : Prop :=
  (∀ a, t.mem.cell a = if a = ea then v else s.mem.cell a) ∧ SameRegsBut s t [] ∧ t.cond = s.cond ∧ t.pc = s.pc ∧
    t.run = s.run ∧ t.out = s.out ∧ SameInput s t

/-- pc, and nothing but pc and the registers listed, may have changed. -/
def OnlyControl (s t : State) (written : List RegIdx) : Prop :=
  SameRegsBut s t written ∧ t.cond = s.cond ∧ SameCells s t ∧ t.run = s.run ∧ t.out = s.out ∧ SameInput s t

/-- A TRAP that writes `written` beside the link and appends `bytes` to the output: memory and pc as before. -/
def TrapEffect (s t : State) (written : List RegIdx) (bytes : List Byte) : Prop :=
  t.reg 7 = s.pc ∧ SameRegsBut s t (7 :: written) ∧ t.pc = s.pc ∧ SameCells s t ∧ t.out = s.out ++ bytes

/-- The loop of PUTS and PUTSP (43_trap.md R143, R145): from address `a`, `s` ends in `t`. -/
inductive StringLoop (bytesOf : Word → List Byte) : Word → State → State → Prop where
  | stop {a : Word} {s : State} (h : (s.memRead a).1 = 0x0000) : StringLoop bytesOf a s (s.memRead a).2
  | more {a : Word} {s t : State} (h : (s.memRead a).1 ≠ 0x0000)
      (rest : StringLoop bytesOf (a + 1) ((s.memRead a).2.outBytes (bytesOf (s.memRead a).1)) t) : StringLoop bytesOf a s t

/-- What PUTS writes of a Word: `w[7:0]`. -/
def putsOut (w : Word) : List Byte := [BitVec.ofNat 8 (slice w 7 0)]

/-- What PUTSP writes of a Word: `w[7:0]`, then `w[15:8]` if it is not zero. -/
def putspOut (w : Word) : List Byte :=
  if slice w 15 8 = 0 then [BitVec.ofNat 8 (slice w 7 0)]
  else [BitVec.ofNat 8 (slice w 7 0), BitVec.ofNat 8 (slice w 15 8)]

/-- The register whose Word the instruction hands to setcc, for exactly the instructions of R26's list. -/
def flagRegister : Instr → Option RegIdx
  | .addReg dr _ _ | .addImm dr _ _ | .andReg dr _ _ | .andImm dr _ _ | .not dr _ => some dr
  | .ld dr _ | .ldi dr _ | .ldr dr _ _ | .lea dr _ => some dr
  | .trapGetchar | .trapIn => some 0
  | _ => none

/-- The registers an instruction may write (10_state.md R21). -/
def writtenRegisters : Instr → List RegIdx
  | .addReg dr _ _ | .addImm dr _ _ | .andReg dr _ _ | .andImm dr _ _ | .not dr _ => [dr]
  | .ld dr _ | .ldi dr _ | .ldr dr _ _ | .lea dr _ => [dr]
  | .br _ _ | .jmp _ | .st _ _ | .sti _ _ | .str _ _ _ | .rti | .res => []
  | .trapGetchar | .trapIn => [7, 0]
  | _ => [7]

/-- The address an instruction stores to, when it stores (20_memory.md R57). -/
def storeAddress (i : Instr) (s : State) : Option Word :=
  match i with
  | .st _ off => some (s.pc + sext off)
  | .sti _ off => some (s.memRead (s.pc + sext off)).1
  | .str _ b off => some (s.reg b + sext off)
  | _ => none

/-- The instructions that read memory beside their fetch (20_memory.md R57). -/
def readsMemory : Instr → Bool
  | .ld _ _ | .ldi _ _ | .ldr _ _ _ | .sti _ _ | .trapPuts | .trapPutsp => true
  | _ => false

/-- The instructions that may draw on pending input: those that read memory, and GETCHAR and IN (10_state.md R29). -/
def drawsInput (i : Instr) : Bool := readsMemory i || i == .trapGetchar || i == .trapIn

/-- The fatal cause an instruction raises (60_exceptions.md R180). -/
def raises : Instr → Option FatalCause
  | .rti => some (.fatalOpcode .rti)
  | .res => some (.fatalOpcode .res)
  | .trapBad00to1F v | .trapBad26to27 v | .trapBad28to2F v | .trapBad30to3F v | .trapBad40to7F v | .trapBad80toFF v =>
    some (.fatalTrapVector v)
  | _ => none

/-- The Word an image puts at address `a`, by R204's and R205's positions: byte 2 + 2i and byte 3 + 2i of an image with
origin `a - i`. No address above 65535 exists, so no Word beyond it is put anywhere. -/
def imageWord (img : ImageStream) (a : Word) : Option Word :=
  match img with
  | .unopenable => none
  | .bytes b =>
    match b[0]?, b[1]? with
    | some h, some l =>
      let origin := h.toNat * 256 + l.toNat
      if origin ≤ a.toNat then
        match b[2 + 2 * (a.toNat - origin)]?, b[3 + 2 * (a.toNat - origin)]? with
        | some wh, some wl => some (BitVec.ofNat 16 (wh.toNat * 256 + wl.toNat))
        | _, _ => none
      else none
    | _, _ => none

/-- Why the loader turns an image down (70_reset_and_hazards.md R207). -/
def imageFault : ImageStream → Option ImageCause
  | .unopenable => some .openFailed
  | .bytes b => if b.length < 2 then some .header else none

/-- The byte stream of an image with origin `o` and payload `ws` (R204). -/
def imageBytes (o : Word) (ws : List Word) : List Byte :=
  (o :: ws).flatMap fun w => [BitVec.ofNat 8 (slice w 15 8), BitVec.ofNat 8 (slice w 7 0)]

end Sys2Proof.Claims

open Sys2Proof Sys2Proof.Machine Sys2Proof.Claims

/-! ### Encoding (30_encoding.md) -/

/-- Decode and encode agree: for every well-formed instruction, with every operand at every value its type admits, decoding
the encoded Word gives the instruction back. -/
def Obligations.DecodeOfEncodeIsIdentity : Prop :=
  ∀ i : Instr, i.wf = true → decode (encode i) = i

/-- Every Word decodes to a well-formed instruction, is covered by that instruction's row of the opcode table, and by no
other instruction's row. Rests on the default opcode numbers (D1, log 1). -/
def Obligations.EveryWordHasExactlyOneRow : Prop :=
  ∀ w : Word, (decode w).wf = true ∧ (decode w).row.covers w = true ∧
    ∀ i : Instr, i.row.covers w = true → i.row = (decode w).row

/-- Bits no handler reads are ignored (D4, log 5): two Words that agree outside the ignored bits decode alike. -/
def Obligations.IgnoredBitsDoNotChangeDecoding : Prop :=
  ∀ w v : Word, (∀ i < 16, (decode w).row.ignored.getLsbD i = false → v.getLsbD i = w.getLsbD i) → decode v = decode w

/-- Encoding what a Word decodes to gives the Word back, its ignored bits at their canonical values (D4, log 5). -/
def Obligations.EncodeOfDecodeKeepsEveryReadBit : Prop :=
  ∀ w : Word, ∀ i < 16,
    (encode (decode w)).getLsbD i =
      if (decode w).row.ignored.getLsbD i then (decode w).row.canonical.getLsbD i else w.getLsbD i

/-- Words written out bit by bit from R81 and R86's default numbers (D1, log 1) decode to what they stand for, one of each
family and both sides of each mode bit. -/
def Obligations.PrintedWordsDecode : Prop :=
  decode 0b0001000001000010 = .addReg 0 1 2 ∧ decode 0b0001001010111101 = .addImm 1 2 0b11101 ∧
    decode 0b0101101011000100 = .andReg 5 3 4 ∧ decode 0b1001001010111111 = .not 1 2 ∧
    decode 0b0000010000000010 = .br 0b010 2 ∧ decode 0b1100000111000000 = .jmp 7 ∧
    decode 0b0100100000000010 = .jsr 2 ∧ decode 0b0100000011000000 = .jsrr 3 ∧
    decode 0b0110010011111111 = .ldr 2 3 0b111111 ∧ decode 0b1011001000000001 = .sti 1 1 ∧
    decode 0b1111000000100101 = .trapHalt ∧ decode 0b1111000000100110 = .trapBad26to27 0x26 ∧
    decode 0b1000000000000000 = .rti ∧ decode 0b1101000000000000 = .res

/-! ### Operands, flags, memory and console operations -/

/-- Sign extension of every immediate and offset width: R8's formula, the signed value is kept, and extending the low bits of
the result again changes nothing. Zero extension clears bits 15:8. -/
def Obligations.SignExtensionKeepsTheSignedValue : Prop :=
  (∀ w ∈ [5, 6, 9, 11], ∀ f : BitVec w,
    sext f = BitVec.ofNat 16 (if f.getLsbD (w - 1) then f.toNat + 0xFFFF * 2 ^ w else f.toNat) ∧
      (sext f).toInt = f.toInt ∧ sext ((sext f).extractLsb' 0 w) = sext f) ∧
    ∀ b : Byte, (zext8 b).toNat = b.toNat

/-- setcc: exactly one flag describes the value by its sign, and nothing but `cond` changes. -/
def Obligations.SetccDescribesTheValue : Prop :=
  ∀ (s : State) (v : Word),
    (v = 0x0000 → (s.setcc v).cond = config.flZro) ∧
      (v ≠ 0x0000 → v.getLsbD 15 = true → (s.setcc v).cond = config.flNeg) ∧
      (v ≠ 0x0000 → v.getLsbD 15 = false → (s.setcc v).cond = config.flPos) ∧
      FlagsOf v (s.setcc v).cond ∧
      [config.flPos, config.flZro, config.flNeg].count (s.setcc v).cond = 1 ∧
      { s.setcc v with cond := s.cond } = s

/-- MemRead at every address. Any address but the status register's: the stored Word and no side effect, the data register
included. The status register, on the input arrived by then (logs 8, 10): not ready, the Word is cleared and read as 0x0000 and
the data register is not touched; ready, the Word becomes 0x8000 (assigned whole: D5, log 6), the oldest input byte is taken into
the data register, zero-extended. No read changes registers, flags, run state or output. -/
def Obligations.MemReadAtEveryAddress : Prop :=
  ∀ (s : State) (a : Word), s.mem.wf = true →
    (a ≠ config.kbsrAddr → s.memRead a = (s.mem.cell a, s)) ∧
      (a = config.kbsrAddr → s.arrive.inReady.1 = false →
        (s.memRead a).1 = 0x0000 ∧ (s.memRead a).2.inq = s.inq ++ arriving s ∧
          ∀ b, (s.memRead a).2.mem.cell b = if b = config.kbsrAddr then 0x0000 else s.mem.cell b) ∧
      (a = config.kbsrAddr → s.arrive.inReady.1 = true →
        ∃ byte rest, s.inq ++ arriving s = byte :: rest ∧ (s.memRead a).1 = 0x8000 ∧ (s.memRead a).2.inq = rest ∧
          ∀ b, (s.memRead a).2.mem.cell b =
            if b = config.kbsrAddr then 0x8000
            else if b = config.kbdrAddr then BitVec.ofNat 16 byte.toNat else s.mem.cell b) ∧
      OnlyControl { (s.memRead a).2 with mem := s.mem, inq := s.inq, polls := s.polls, draws := s.draws } s [] ∧
      (s.memRead a).2.pc = s.pc

/-- MemWrite stores at every address, the two console addresses included, and changes nothing else (R55). That the stored
memory keeps a canonical form is the model's own choice of a representation (log 13, DESIGN CHOICE), not R55's. -/
def Obligations.MemWriteIsPlainStorage : Prop :=
  ∀ (s : State) (a v : Word), s.mem.wf = true →
    (∀ b, (s.memWrite a v).mem.cell b = if b = a then v else s.mem.cell b) ∧
      (s.memWrite a v).mem.wf = true ∧ { s.memWrite a v with mem := s.mem } = s

/-- The input-ready draw (D7, logs 8, 10): true only with a byte pending, and with one pending the environment may give either
answer; a poll by itself takes no input and touches nothing but the record of answers. What has been sent before it looks stands
at the end of the queue, and an arrival changes no core state. -/
def Obligations.InReadyIsAConstrainedDraw : Prop :=
  ∀ s : State,
    (s.inReady.1 = true → s.inq ≠ []) ∧
      (s.inq ≠ [] → ∀ answer, (s.plan [{ arrived := [], ready := answer }] s.feed).inReady.1 = answer) ∧
      { s.inReady.2 with polls := s.polls, draws := s.draws } = s ∧
      s.arrive.inq = s.inq ++ arriving s ∧ { s.arrive with inq := s.inq, polls := s.polls } = s

/-! ### Arithmetic and logic (40_alu.md) -/

/-- ADD, register mode. That bits 4:3 are ignored is D4 (log 5). -/
def Obligations.AddRegisterWritesTheWrappedSum : Prop :=
  ∀ dr sr1 sr2 : RegIdx,
    (∀ w, HasOpcode w .add → slice w 5 5 = 0 → slice w 11 9 = dr → slice w 8 6 = sr1 → slice w 2 0 = sr2 →
      decode w = .addReg dr sr1 sr2) ∧
    ∀ s, ∃ t, exec (.addReg dr sr1 sr2) s = .next t ∧
      WritesResult s t dr (BitVec.ofNat 16 (((s.reg sr1).toNat + (s.reg sr2).toNat) % 65536))

/-- ADD, immediate mode. -/
def Obligations.AddImmediateWritesTheWrappedSum : Prop :=
  ∀ (dr sr1 : RegIdx) (imm5 : BitVec 5),
    (∀ w, HasOpcode w .add → slice w 5 5 = 1 → slice w 11 9 = dr → slice w 8 6 = sr1 → slice w 4 0 = imm5.toNat →
      decode w = .addImm dr sr1 imm5) ∧
    ∀ s, ∃ t, exec (.addImm dr sr1 imm5) s = .next t ∧
      WritesResult s t dr (BitVec.ofInt 16 ((s.reg sr1).toInt + imm5.toInt))

/-- AND, register mode, bit by bit. That bits 4:3 are ignored is D4 (log 5). -/
def Obligations.AndRegisterWritesTheBitwiseAnd : Prop :=
  ∀ dr sr1 sr2 : RegIdx,
    (∀ w, HasOpcode w .and → slice w 5 5 = 0 → slice w 11 9 = dr → slice w 8 6 = sr1 → slice w 2 0 = sr2 →
      decode w = .andReg dr sr1 sr2) ∧
    ∀ s, ∃ t, exec (.andReg dr sr1 sr2) s = .next t ∧ WritesResult s t dr (t.reg dr) ∧
      ∀ i < 16, (t.reg dr).getLsbD i = ((s.reg sr1).getLsbD i && (s.reg sr2).getLsbD i)

/-- AND, immediate mode: the immediate is sign-extended, so its bit 4 stands for bits 15:5 too. -/
def Obligations.AndImmediateExtendsTheSign : Prop :=
  ∀ (dr sr1 : RegIdx) (imm5 : BitVec 5),
    (∀ w, HasOpcode w .and → slice w 5 5 = 1 → slice w 11 9 = dr → slice w 8 6 = sr1 → slice w 4 0 = imm5.toNat →
      decode w = .andImm dr sr1 imm5) ∧
    ∀ s, ∃ t, exec (.andImm dr sr1 imm5) s = .next t ∧ WritesResult s t dr (t.reg dr) ∧
      ∀ i < 16, (t.reg dr).getLsbD i = ((s.reg sr1).getLsbD i && imm5.getLsbD (min i 4))

/-- NOT: 0xFFFF less the source. That bits 5:0 are ignored is D4 (log 5). -/
def Obligations.NotWritesTheComplement : Prop :=
  ∀ dr sr : RegIdx,
    (∀ w, HasOpcode w .not → slice w 11 9 = dr → slice w 8 6 = sr → decode w = .not dr sr) ∧
    ∀ s, ∃ t, exec (.not dr sr) s = .next t ∧ WritesResult s t dr (BitVec.ofNat 16 (0xFFFF - (s.reg sr).toNat))

/-! ### Control transfer (41_control.md) -/

/-- BR: taken exactly when the mask ANDed with the flags register is not zero; only pc changes. With a legal flags register
mask 0b000 is never taken, 0b111 always, and bit 2, 1, 0 of the mask selects NEGATIVE, ZERO, POSITIVE (D3, log 3). -/
def Obligations.BranchTestsTheSelectedFlag : Prop :=
  ∀ (mask : BitVec 3) (off : BitVec 9),
    (∀ w, HasOpcode w .br → slice w 11 9 = mask.toNat → slice w 8 0 = off.toNat → decode w = .br mask off) ∧
    ∀ s, ∃ t, exec (.br mask off) s = .next t ∧ OnlyControl s t [] ∧
      t.pc = (if mask.toNat &&& s.cond.toNat ≠ 0 then BitVec.ofInt 16 (s.pc.toNat + off.toInt) else s.pc) ∧
      (mask = 0b000 → t.pc = s.pc) ∧
      (mask = 0b111 → s.condLegal = true → t.pc = BitVec.ofInt 16 (s.pc.toNat + off.toInt)) ∧
      (s.cond = config.flNeg → t.pc = if mask.getLsbD 2 then BitVec.ofInt 16 (s.pc.toNat + off.toInt) else s.pc) ∧
      (s.cond = config.flZro → t.pc = if mask.getLsbD 1 then BitVec.ofInt 16 (s.pc.toNat + off.toInt) else s.pc) ∧
      (s.cond = config.flPos → t.pc = if mask.getLsbD 0 then BitVec.ofInt 16 (s.pc.toNat + off.toInt) else s.pc)

/-- JMP: pc becomes the base register, and nothing else changes. That the other bits are ignored is D4 (log 5). -/
def Obligations.JumpGoesToTheBaseRegister : Prop :=
  ∀ baseR : RegIdx,
    (∀ w, HasOpcode w .jmp → slice w 8 6 = baseR → decode w = .jmp baseR) ∧
    ∀ s, ∃ t, exec (.jmp baseR) s = .next t ∧ t.pc = s.reg baseR ∧ OnlyControl s t []

/-- JSR: the return address goes to x[7], the target is relative to that same pc, the flags are not written. -/
def Obligations.JsrLinksAndJumpsRelative : Prop :=
  ∀ off : BitVec 11,
    (∀ w, HasOpcode w .jsr → slice w 11 11 = 1 → slice w 10 0 = off.toNat → decode w = .jsr off) ∧
    ∀ s, ∃ t, exec (.jsr off) s = .next t ∧ t.reg 7 = s.pc ∧ t.pc = BitVec.ofInt 16 (s.pc.toNat + off.toInt) ∧
      OnlyControl s t [7]

/-- JSRR: the link is written first, so JSRR R7 goes on at the next instruction and every other base is read as it was. That
the other bits are ignored is D4 (log 5). -/
def Obligations.JsrrReadsTheBaseAfterTheLink : Prop :=
  ∀ baseR : RegIdx,
    (∀ w, HasOpcode w .jsr → slice w 11 11 = 0 → slice w 8 6 = baseR → decode w = .jsrr baseR) ∧
    ∀ s, ∃ t, exec (.jsrr baseR) s = .next t ∧ t.reg 7 = s.pc ∧
      t.pc = (if baseR = 7 then s.pc else s.reg baseR) ∧ OnlyControl s t [7]

/-! ### Loads, stores, LEA (42_load_store.md) -/

/-- LD loads from pc + sext(pcoffset9) through MemRead. -/
def Obligations.LdLoadsPcRelative : Prop :=
  ∀ (dr : RegIdx) (off : BitVec 9),
    (∀ w, HasOpcode w .ld → slice w 11 9 = dr → slice w 8 0 = off.toNat → decode w = .ld dr off) ∧
    ∀ s, ∃ t, exec (.ld dr off) s = .next t ∧ LoadsFrom s t dr (BitVec.ofInt 16 (s.pc.toNat + off.toInt))

/-- LDI reads the pointer, then the datum, both through MemRead, in that order. -/
def Obligations.LdiReadsPointerThenDatum : Prop :=
  ∀ (dr : RegIdx) (off : BitVec 9),
    (∀ w, HasOpcode w .ldi → slice w 11 9 = dr → slice w 8 0 = off.toNat → decode w = .ldi dr off) ∧
    ∀ s, ∃ t, exec (.ldi dr off) s = .next t ∧
      LoadsFrom (s.memRead (BitVec.ofInt 16 (s.pc.toNat + off.toInt))).2 t dr
        (s.memRead (BitVec.ofInt 16 (s.pc.toNat + off.toInt))).1 ∧
      SameRegsBut s t [dr] ∧ t.pc = s.pc ∧ t.run = s.run ∧ t.out = s.out

/-- LDR loads from x[baseR] + sext(offset6), the base read before dr is written. -/
def Obligations.LdrLoadsBasePlusOffset : Prop :=
  ∀ (dr baseR : RegIdx) (off : BitVec 6),
    (∀ w, HasOpcode w .ldr → slice w 11 9 = dr → slice w 8 6 = baseR → slice w 5 0 = off.toNat →
      decode w = .ldr dr baseR off) ∧
    ∀ s, ∃ t, exec (.ldr dr baseR off) s = .next t ∧
      LoadsFrom s t dr (BitVec.ofInt 16 ((s.reg baseR).toNat + off.toInt))

/-- LEA writes the address, sets the flags from it, and touches neither memory nor input. -/
def Obligations.LeaWritesTheAddress : Prop :=
  ∀ (dr : RegIdx) (off : BitVec 9),
    (∀ w, HasOpcode w .lea → slice w 11 9 = dr → slice w 8 0 = off.toNat → decode w = .lea dr off) ∧
    ∀ s, ∃ t, exec (.lea dr off) s = .next t ∧ WritesResult s t dr (BitVec.ofInt 16 (s.pc.toNat + off.toInt))

/-- ST stores x[sr] at pc + sext(pcoffset9) and changes nothing else. -/
def Obligations.StStoresPcRelative : Prop :=
  ∀ (sr : RegIdx) (off : BitVec 9),
    (∀ w, HasOpcode w .st → slice w 11 9 = sr → slice w 8 0 = off.toNat → decode w = .st sr off) ∧
    ∀ s, s.mem.wf = true → ∃ t, exec (.st sr off) s = .next t ∧
      StoresAt s t (BitVec.ofInt 16 (s.pc.toNat + off.toInt)) (s.reg sr)

/-- STI reads its pointer through MemRead, then stores x[sr] where it points; registers, flags, pc, run state and output are as
before the instruction, memory and input as after the pointer read but for the cell stored to. -/
def Obligations.StiStoresThroughThePointer : Prop :=
  ∀ (sr : RegIdx) (off : BitVec 9),
    (∀ w, HasOpcode w .sti → slice w 11 9 = sr → slice w 8 0 = off.toNat → decode w = .sti sr off) ∧
    ∀ s, s.mem.wf = true → ∃ t, exec (.sti sr off) s = .next t ∧
      StoresAt (s.memRead (BitVec.ofInt 16 (s.pc.toNat + off.toInt))).2 t
        (s.memRead (BitVec.ofInt 16 (s.pc.toNat + off.toInt))).1 (s.reg sr) ∧
      SameRegsBut s t [] ∧ t.cond = s.cond ∧ t.pc = s.pc ∧ t.run = s.run ∧ t.out = s.out

/-- STR stores x[sr] at x[baseR] + sext(offset6) and changes nothing else. -/
def Obligations.StrStoresBasePlusOffset : Prop :=
  ∀ (sr baseR : RegIdx) (off : BitVec 6),
    (∀ w, HasOpcode w .str → slice w 11 9 = sr → slice w 8 6 = baseR → slice w 5 0 = off.toNat →
      decode w = .str sr baseR off) ∧
    ∀ s, s.mem.wf = true → ∃ t, exec (.str sr baseR off) s = .next t ∧
      StoresAt s t (BitVec.ofInt 16 ((s.reg baseR).toNat + off.toInt)) (s.reg sr)

/-! ### TRAP (43_trap.md) -/

/-- The trap vector selects the routine, whatever bits 11:8 hold (ignored: D4, log 5). -/
def Obligations.TrapVectorSelectsTheRoutine : Prop :=
  ∀ w, HasOpcode w .trap →
    (slice w 7 0 = 0x20 → decode w = .trapGetchar) ∧ (slice w 7 0 = 0x21 → decode w = .trapOutputchar) ∧
      (slice w 7 0 = 0x22 → decode w = .trapPuts) ∧ (slice w 7 0 = 0x23 → decode w = .trapIn) ∧
      (slice w 7 0 = 0x24 → decode w = .trapPutsp) ∧ (slice w 7 0 = 0x25 → decode w = .trapHalt) ∧
      (slice w 7 0 < 0x20 ∨ 0x25 < slice w 7 0 →
        raises (decode w) = some (.fatalTrapVector (BitVec.ofNat 8 (slice w 7 0))))

/-- GETCHAR with a byte pending: the oldest byte goes to x[0], zero-extended (D6, log 7), the flags describe it and are never
NEGATIVE, x[7] is linked, nothing is echoed, no poll is made, memory is untouched. -/
def Obligations.GetcharDeliversTheOldestByte : Prop :=
  ∀ (s : State) (b : Byte) (rest : List Byte), s.inq = b :: rest →
    ∃ t, exec .trapGetchar s = .next t ∧ TrapEffect s t [0] [] ∧ t.reg 0 = BitVec.ofNat 16 b.toNat ∧
      FlagsOf (t.reg 0) t.cond ∧ t.cond ≠ config.flNeg ∧ t.run = s.run ∧
      t.inq = rest ∧ t.polls = s.polls ∧ t.feed = s.feed ∧ t.draws = s.draws

/-- OUTPUTCHAR appends the low byte of x[0]; beside the link nothing else changes. -/
def Obligations.OutputcharWritesTheLowByte : Prop :=
  ∀ s : State, ∃ t, exec .trapOutputchar s = .next t ∧
    TrapEffect s t [] [BitVec.ofNat 8 (slice (s.reg 0) 7 0)] ∧ t.cond = s.cond ∧ t.run = s.run ∧ SameInput s t

/-- PUTS and PUTSP, the string wherever it lies: their next state is exactly the one the loop of R143 and R145 (D8, log 11) ends
in after the link; flags, pc, run state and the registers but x[7] are as before. They complete whenever the environment does not
feed input without end (log 10). -/
def Obligations.PutsAndPutspRunTheStringLoop : Prop :=
  ∀ s : State, s.mem.wf = true →
    (∀ t, exec .trapPuts s = .next t ↔ StringLoop putsOut (s.reg 0) (s.setReg 7 s.pc) t) ∧
      (∀ t, exec .trapPutsp s = .next t ↔ StringLoop putspOut (s.reg 0) (s.setReg 7 s.pc) t) ∧
      (∀ t, exec .trapPuts s = .next t ∨ exec .trapPutsp s = .next t →
        t.reg 7 = s.pc ∧ SameRegsBut s t [7] ∧ t.cond = s.cond ∧ t.pc = s.pc ∧ t.run = s.run) ∧
      (s.feed = none → (∃ t, exec .trapPuts s = .next t) ∧ ∃ t, exec .trapPutsp s = .next t)

/-- PUTS and PUTSP over a string of k Words that does not reach the status register: the bytes of its Words in order, up to the
first zero Word, the pointer wrapping at 0xFFFF (D8, log 11); x[0], memory and input are untouched. -/
def Obligations.PutsAndPutspWriteTheString : Prop :=
  ∀ (s : State) (k : Nat), k < 65536 →
    (∀ i ≤ k, s.reg 0 + BitVec.ofNat 16 i ≠ config.kbsrAddr) →
    (∀ i < k, s.mem.cell (s.reg 0 + BitVec.ofNat 16 i) ≠ 0x0000) →
    s.mem.cell (s.reg 0 + BitVec.ofNat 16 k) = 0x0000 →
    (∃ t, exec .trapPuts s = .next t ∧
      TrapEffect s t [] ((List.range k).flatMap fun i => putsOut (s.mem.cell (s.reg 0 + BitVec.ofNat 16 i))) ∧
      t.cond = s.cond ∧ t.run = s.run ∧ SameInput s t) ∧
    ∃ t, exec .trapPutsp s = .next t ∧
      TrapEffect s t [] ((List.range k).flatMap fun i => putspOut (s.mem.cell (s.reg 0 + BitVec.ofNat 16 i))) ∧
      t.cond = s.cond ∧ t.run = s.run ∧ SameInput s t

/-- IN with a byte pending: the prompt, then the byte's echo, are appended; the byte goes to x[0], zero-extended (D6, D9: logs 4,
7), the flags describe it; no poll is made, memory is untouched. -/
def Obligations.InPromptsReadsAndEchoes : Prop :=
  ∀ (s : State) (b : Byte) (rest : List Byte), s.inq = b :: rest →
    ∃ t, exec .trapIn s = .next t ∧ TrapEffect s t [0] (config.inPrompt ++ [b]) ∧ t.reg 0 = BitVec.ofNat 16 b.toNat ∧
      FlagsOf (t.reg 0) t.cond ∧ t.run = s.run ∧ t.inq = rest ∧ t.polls = s.polls ∧ t.feed = s.feed ∧ t.draws = s.draws

/-- GETCHAR and IN wait exactly when no byte is pending (D7, logs 9, 10): no step exists then, IN's prompt already shows (D9),
and once the environment has appended input the same instruction completes. -/
def Obligations.InputTrapsWaitExactlyForInput : Prop :=
  ∀ s : State,
    (exec .trapGetchar s = .fault (.blockedOnInput s.out) ↔ s.inq = []) ∧
      (exec .trapIn s = .fault (.blockedOnInput (s.out ++ config.inPrompt)) ↔ s.inq = []) ∧
      ∀ bytes, bytes ≠ [] →
        (∃ t, exec .trapGetchar (s.receive bytes) = .next t) ∧ ∃ t, exec .trapIn (s.receive bytes) = .next t

/-- HALT appends the notice and sets run to HALTED; x[7] and pc both hold the address after the TRAP Word, and nothing else
changes. -/
def Obligations.HaltEndsTheRun : Prop :=
  ∀ s : State, ∃ t, exec .trapHalt s = .next t ∧ TrapEffect s t [] config.haltNotice ∧ t.run = .halted ∧
    t.cond = s.cond ∧ SameInput s t

/-- Every TRAP with an unrecognised vector: the link is written, then the run is FATAL with the vector as its cause; nothing is
written to the output and nothing else changes. That the link comes first is D10 (log 12). -/
def Obligations.UnrecognisedVectorIsFatal : Prop :=
  ∀ (s : State) (v : BitVec 8),
    ∀ i ∈ [Instr.trapBad00to1F v, .trapBad26to27 v, .trapBad28to2F v, .trapBad30to3F v, .trapBad40to7F v, .trapBad80toFF v],
      ∃ t, exec i s = .next t ∧ TrapEffect s t [] [] ∧ t.run = .fatal (.fatalTrapVector v) ∧ t.cond = s.cond ∧ SameInput s t

/-! ### RTI and RES (44_reserved.md) -/

/-- RTI and RES, whatever their other bits (D4, log 5): the run is FATAL with the opcode as its cause, nothing else changes. -/
def Obligations.RtiAndResAreFatal : Prop :=
  (∀ w, (HasOpcode w .rti → decode w = .rti) ∧ (HasOpcode w .res → decode w = .res)) ∧
    ∀ s : State,
      (∃ t, exec .rti s = .next t ∧ t.run = .fatal (.fatalOpcode .rti) ∧ t.pc = s.pc ∧
        OnlyControl s { t with run := s.run } []) ∧
      ∃ t, exec .res s = .next t ∧ t.run = .fatal (.fatalOpcode .res) ∧ t.pc = s.pc ∧
        OnlyControl s { t with run := s.run } []

/-! ### The step (45_execution_loop.md) -/

/-- A step runs the decoded instruction: fetch through MemRead, increment pc modulo 2^16, execute. Everywhere but at the status
register the fetch is a plain read. -/
def Obligations.StepRunsTheDecodedInstruction : Prop :=
  ∀ s : State, s.run = .running →
    step s = exec (decode (s.memRead s.pc).1) { (s.memRead s.pc).2 with pc := BitVec.ofNat 16 (s.pc.toNat + 1) } ∧
      ∀ i, s.pc ≠ config.kbsrAddr → decode (s.mem.cell s.pc) = i →
        step s = exec i { s with pc := BitVec.ofNat 16 (s.pc.toNat + 1) }

/-- The host's way to place an instruction: with any Word stored where the next step fetches, the next step runs it. -/
def Obligations.PlacedWordIsTheNextInstruction : Prop :=
  ∀ (s : State) (w : Word), s.mem.wf = true → s.run = .running → s.pc ≠ config.kbsrAddr →
    decodeTableWord 16 w.toNat = some (decode w) ∧
      step (s.withFetchWord 16 w.toNat) = exec (decode w) { s with mem := s.mem.store s.pc w, pc := s.pc + 1 }

/-- Fetching from the status register (default numbers: D1, D5, logs 1, 6), on the input arrived by then (log 10): with no
input ready it is a no-operation that clears the status Word; with input ready it fetches 0x8000, which is RTI and fatal, and the
oldest byte goes, zero-extended, to the data register. No other cell changes. -/
def Obligations.FetchFromTheStatusRegister : Prop :=
  ∀ s : State, s.mem.wf = true → s.run = .running → s.pc = config.kbsrAddr →
    (s.arrive.inReady.1 = false → ∃ t, step s = .next t ∧ t.pc = s.pc + 1 ∧ t.run = .running ∧
      t.inq = s.inq ++ arriving s ∧ SameRegsBut s t [] ∧ t.cond = s.cond ∧ t.out = s.out ∧
      ∀ a, t.mem.cell a = if a = config.kbsrAddr then 0x0000 else s.mem.cell a) ∧
    (s.arrive.inReady.1 = true → ∃ t byte rest, step s = .next t ∧ t.pc = s.pc + 1 ∧
      t.run = .fatal (.fatalOpcode .rti) ∧ s.inq ++ arriving s = byte :: rest ∧ t.inq = rest ∧
      SameRegsBut s t [] ∧ t.cond = s.cond ∧ t.out = s.out ∧
      ∀ a, t.mem.cell a =
        if a = config.kbsrAddr then 0x8000
        else if a = config.kbdrAddr then BitVec.ofNat 16 byte.toNat else s.mem.cell a)

/-- The run states: only a RUNNING core steps; a step leaves RUNNING exactly by HALT, RTI, RES or a TRAP with an unrecognised
vector; from HALTED and FATAL no step exists; a completed reset sequence makes the core RUNNING from any state. The transitions are R161's.
That the fatal outcome is a next state with a symbolic cause, and that a step from HALTED or FATAL is answered by a fault of that
name, is D10 and the model's choice (log 12, DESIGN CHOICE). -/
def Obligations.RunStateTransitions : Prop :=
  (∀ s t : State, step s = .next t →
    s.run = .running ∧
      t.run = match raises (decode (s.memRead s.pc).1) with
        | some cause => .fatal cause
        | none => if decode (s.memRead s.pc).1 = .trapHalt then .halted else .running) ∧
    ∀ s : State, (s.run = .halted → step s = .fault .halted) ∧ (∀ c, s.run = .fatal c → step s = .fault (.fatal c)) ∧
      ∀ first rest t, s.resetWith first rest = .ok t → t.run = .running

/-- A store is seen by the very next fetch: ST over the next instruction decides what the next step executes. -/
def Obligations.StoreIsSeenByTheNextFetch : Prop :=
  ∀ (s : State) (sr : RegIdx), s.mem.wf = true → s.run = .running → s.pc ≠ config.kbsrAddr → s.pc + 1 ≠ config.kbsrAddr →
    decode (s.mem.cell s.pc) = .st sr 0 →
    ∃ t, step s = .next t ∧ t.pc = s.pc + 1 ∧ step t = exec (decode (s.reg sr)) { t with pc := t.pc + 1 }

/-! ### Rules about every instruction -/

/-- Exactly the instructions of R26's list call setcc, each on the Word it has just written; every other one, the link writes
of JSR, JSRR and TRAP among them, leaves the flags alone. -/
def Obligations.FlagsFollowTheListedWritesOnly : Prop :=
  ∀ (i : Instr) (s t : State), exec i s = .next t →
    match flagRegister i with
    | some r => FlagsOf (t.reg r) t.cond
    | none => t.cond = s.cond

/-- No instruction writes a register its rule does not name. -/
def Obligations.OnlyNamedRegistersAreWritten : Prop :=
  ∀ (i : Instr) (s t : State), exec i s = .next t → SameRegsBut s t (writtenRegisters i)

/-- Memory changes only where an instruction stores and, for an instruction that reads memory, in the two console cells. -/
def Obligations.OnlyStoresAndPollsChangeMemory : Prop :=
  ∀ (i : Instr) (s t : State), s.mem.wf = true → exec i s = .next t →
    ∀ a, storeAddress i s ≠ some a →
      (readsMemory i = true → a ≠ config.kbsrAddr ∧ a ≠ config.kbdrAddr) → t.mem.cell a = s.mem.cell a

/-- A step only appends to the output. As to input, it uses the environment's listed answers from the front, what they bring
goes to the end of the queue, in order (then what an endless feed brings, once no answer is listed: log 10), and what is taken
leaves from the front; the feed stays. -/
def Obligations.OutputGrowsAndInputIsTakenInOrder : Prop :=
  ∀ s t : State, step s = .next t →
    (∃ bytes, t.out = s.out ++ bytes) ∧ t.feed = s.feed ∧
      ∃ k n taken, t.polls = s.polls.drop k ∧ (0 < n → t.polls = []) ∧ s.inq ++ arrivals s k n = taken ++ t.inq

/-- Pending input is invisible to an instruction that neither reads memory nor is GETCHAR or IN: more input, pending or to come,
changes nothing of what it does. -/
def Obligations.PendingInputIsInvisible : Prop :=
  ∀ (i : Instr) (s t : State) (bytes : List Byte), drawsInput i = false → exec i s = .next t →
    exec i (s.receive bytes) = .next (t.receive bytes) ∧
      ∀ polls feed, exec i (s.plan polls feed) = .next (t.plan polls feed)

/-! ### The invariant -/

/-- Every step keeps the invariant: canonical memory inside the address space, exactly one of the three flags, a legal run
state (the representation of memory is log 13). -/
def Obligations.StepKeepsTheInvariant : Prop :=
  ∀ s t : State, s.Inv → step s = .next t → t.Inv

/-- The invariant holds right after reset. -/
def Obligations.ResetMeetsTheInvariant : Prop := State.Inv State.reset

/-- The invariant holds in every state reachable from one that meets it, whatever input the environment appends, whenever, and
whatever it settles to send and answer inside instructions. -/
def Obligations.InvariantHoldsOfEveryReachableState : Prop :=
  ∀ s t : State, s.Inv → Reach s t → t.Inv

/-! ### Reset and the loader (70_reset_and_hazards.md) -/

/-- LoadImage: the two errors, and for every other stream every cell is the image's Word where the image covers it, and as it
was elsewhere; nothing wraps past 0xFFFF, an odd last byte is dropped (D11, log 14). -/
def Obligations.LoadImagePutsEveryWord : Prop :=
  ∀ m : Memory, m.wf = true →
    loadImage m .unopenable = .error .openFailed ∧
      ∀ b : List Byte,
        (b.length < 2 → loadImage m (.bytes b) = .error .header) ∧
          (2 ≤ b.length → ∃ m', loadImage m (.bytes b) = .ok m' ∧ m'.wf = true ∧
            ∀ a, m'.cell a = (imageWord (.bytes b) a).getD (m.cell a))

/-- The reset sequence, from any state (D12, logs 14, 15): it succeeds exactly when no image is at fault; then registers are
zero, pc is 0x3000, the flags are ZERO, the core is RUNNING, the output is empty, the environment's input is kept, and every cell
holds the Word of the LAST image that covers it, or zero. -/
def Obligations.ResetGivesTheInitialState : Prop :=
  ∀ (s : State) (first : ImageStream) (rest : List ImageStream),
    ((∃ t, s.resetWith first rest = .ok t) ↔ ∀ img ∈ first :: rest, imageFault img = none) ∧
      ∀ t, s.resetWith first rest = .ok t →
        (∀ j, t.reg j = 0x0000) ∧ t.pc = 0x3000 ∧ t.cond = config.flZro ∧ t.run = .running ∧ t.out = [] ∧
          SameInput s t ∧ t.Inv ∧
          ∀ a, t.mem.cell a = ((first :: rest).reverse.findSome? (imageWord · a)).getD 0x0000

/-- ImageError: the first image at fault ends the reset sequence with its own index and cause (D11, log 14). -/
def Obligations.FirstFaultyImageEndsReset : Prop :=
  ∀ (s : State) (first : ImageStream) (rest : List ImageStream) (j : Nat) (cause : ImageCause),
    s.resetWith first rest = .error { index := j, cause := cause } ↔
      ((first :: rest)[j]?.bind imageFault = some cause ∧
        ∀ k < j, (first :: rest)[k]?.bind imageFault = none)

/-- The loader's law: an image with origin O and payload words, the last of the list (or the only one), is read back whole
through MemRead where it fits and avoids the status register. -/
def Obligations.LoadedImageIsReadBack : Prop :=
  ∀ (s : State) (first : ImageStream) (rest : List ImageStream) (o : Word) (ws : List Word),
    (∀ img ∈ first :: rest, imageFault img = none) → (first :: rest).getLast? = some (.bytes (imageBytes o ws)) →
    o.toNat + ws.length ≤ 65536 →
    ∃ t, s.resetWith first rest = .ok t ∧
      ∀ i (h : i < ws.length), o + BitVec.ofNat 16 i ≠ config.kbsrAddr →
        (t.memRead (o + BitVec.ofNat 16 i)).1 = ws[i]

/-! ### A scan that never ends (45_execution_loop.md R163, 70_reset_and_hazards.md R216) -/

/-- PUTS and PUTSP hang exactly when the loop of R143 and R145 ends in no state (U13, D7, D8; logs 10, 11): then there is no next
state, which the model answers by the fault of that name. They do so when the environment never stops sending bytes other than
zero and no cell but the status register's is zero. -/
def Obligations.PutsAndPutspHangExactlyWhenTheLoopNeverEnds : Prop :=
  ∀ s : State, s.mem.wf = true →
    (exec .trapPuts s = .fault .stringNeverEnds ↔ ¬ ∃ t, StringLoop putsOut (s.reg 0) (s.setReg 7 s.pc) t) ∧
      (exec .trapPutsp s = .fault .stringNeverEnds ↔ ¬ ∃ t, StringLoop putspOut (s.reg 0) (s.setReg 7 s.pc) t) ∧
      (s.polls = [] → (∃ b, s.feed = some b ∧ b ≠ 0x00) → (∀ b ∈ s.inq, b ≠ 0x00) →
        (∀ c, c ≠ config.kbsrAddr → s.mem.cell c ≠ 0x0000) →
        exec .trapPuts s = .fault .stringNeverEnds ∧ exec .trapPutsp s = .fault .stringNeverEnds)
end

