-- ==== Sys2Proof/Laws/Decode.lean ====
section
/-! SUPPORT. The bit arithmetic of decoding and encoding: what each field and each format is as a number, and that OPC and
the register fields are read back as written. -/

namespace Sys2Proof

/-! ### Bits as numbers -/

theorem toNat_join {n m : Nat} (x : BitVec n) (y : BitVec m) : (x ++ y).toNat = x.toNat * 2 ^ m + y.toNat := by
  rw [BitVec.toNat_append, ← Nat.shiftLeft_add_eq_or_of_lt y.isLt, Nat.shiftLeft_eq]

theorem getLsbD_eq_div {n : Nat} (x : BitVec n) (i : Nat) : x.getLsbD i = decide (x.toNat / 2 ^ i % 2 = 1) := by
  rw [BitVec.getLsbD, Nat.testBit_eq_decide_div_mod_eq]

theorem toNat_extract {n : Nat} (x : BitVec n) (lo len : Nat) :
    (x.extractLsb' lo len).toNat = x.toNat / 2 ^ lo % 2 ^ len := by
  rw [BitVec.extractLsb'_toNat, Nat.shiftRight_eq_div_pow]

/-! ### Registers and opcode numbers -/

@[simp] theorem toNat_regBits (r : RegIdx) : (regBits r).toNat = r.val := by simp [regBits]

@[simp] theorem regOf_regBits (r : RegIdx) : regOf (regBits r) = r := Fin.ext (toNat_regBits r)

@[simp] theorem regBits_regOf (f : BitVec 3) : regBits (regOf f) = f := BitVec.eq_of_toNat_eq (toNat_regBits _)

/-- OPC is read back as written: the number of a name stands for that name (30_encoding.md R86). -/
@[simp] theorem opcodeOf_opc (o : Opcode) : opcodeOf (config.opc o) = o := by cases o <;> decide

/-- Every 4-bit number is some name's. -/
@[simp] theorem opc_opcodeOf (n : BitVec 4) : config.opc (opcodeOf n) = n := by revert n; decide

/-! ### Fields as numbers -/

theorem toNat_fieldOpcode (w : Word) : (fieldOpcode w).toNat = w.toNat / 4096 % 16 := toNat_extract w 12 4
theorem val_fieldR11 (w : Word) : (fieldR11 w).val = w.toNat / 512 % 8 := toNat_extract w 9 3
theorem val_fieldR8 (w : Word) : (fieldR8 w).val = w.toNat / 64 % 8 := toNat_extract w 6 3
theorem val_fieldR2 (w : Word) : (fieldR2 w).val = w.toNat % 8 := by
  exact (toNat_extract w 0 3).trans (congrArg (· % 8) (Nat.div_one _))
theorem toNat_fieldCond (w : Word) : (fieldCond w).toNat = w.toNat / 512 % 8 := toNat_extract w 9 3
theorem toNat_fieldImm5 (w : Word) : (fieldImm5 w).toNat = w.toNat % 32 := by
  exact (toNat_extract w 0 5).trans (congrArg (· % 32) (Nat.div_one _))
theorem toNat_fieldOffset6 (w : Word) : (fieldOffset6 w).toNat = w.toNat % 64 := by
  exact (toNat_extract w 0 6).trans (congrArg (· % 64) (Nat.div_one _))
theorem toNat_fieldPcoffset9 (w : Word) : (fieldPcoffset9 w).toNat = w.toNat % 512 := by
  exact (toNat_extract w 0 9).trans (congrArg (· % 512) (Nat.div_one _))
theorem toNat_fieldPcoffset11 (w : Word) : (fieldPcoffset11 w).toNat = w.toNat % 2048 := by
  exact (toNat_extract w 0 11).trans (congrArg (· % 2048) (Nat.div_one _))
theorem toNat_fieldTrapvect8 (w : Word) : (fieldTrapvect8 w).toNat = w.toNat % 256 := by
  exact (toNat_extract w 0 8).trans (congrArg (· % 256) (Nat.div_one _))
theorem fieldImmMode_eq (w : Word) : fieldImmMode w = decide (w.toNat / 32 % 2 = 1) := getLsbD_eq_div w 5
theorem fieldJsrMode_eq (w : Word) : fieldJsrMode w = decide (w.toNat / 2048 % 2 = 1) := getLsbD_eq_div w 11

/-! ### Formats as numbers (30_encoding.md R81) -/

theorem toNat_encRRR (o : Opcode) (dr sr1 sr2 : RegIdx) :
    (encRRR o dr sr1 sr2).toNat = (config.opc o).toNat * 4096 + dr.val * 512 + sr1.val * 64 + sr2.val := by
  unfold encRRR
  simp only [toNat_join, toNat_regBits, BitVec.toNat_ofNat]
  omega
theorem toNat_encRRI (o : Opcode) (dr sr1 : RegIdx) (imm5 : BitVec 5) :
    (encRRI o dr sr1 imm5).toNat = (config.opc o).toNat * 4096 + dr.val * 512 + sr1.val * 64 + 32 + imm5.toNat := by
  unfold encRRI
  simp only [toNat_join, toNat_regBits, BitVec.toNat_ofNat]
  omega
theorem toNat_encRR (o : Opcode) (dr sr : RegIdx) :
    (encRR o dr sr).toNat = (config.opc o).toNat * 4096 + dr.val * 512 + sr.val * 64 + 63 := by
  unfold encRR
  simp only [toNat_join, toNat_regBits, BitVec.toNat_ofNat]
  omega
theorem toNat_encBR (o : Opcode) (cond : BitVec 3) (off : BitVec 9) :
    (encBR o cond off).toNat = (config.opc o).toNat * 4096 + cond.toNat * 512 + off.toNat := by
  unfold encBR
  simp only [toNat_join]
  omega
theorem toNat_encB (o : Opcode) (baseR : RegIdx) :
    (encB o baseR).toNat = (config.opc o).toNat * 4096 + baseR.val * 64 := by
  unfold encB
  simp only [toNat_join, toNat_regBits, BitVec.toNat_ofNat]
  omega
theorem toNat_encJ11 (o : Opcode) (off : BitVec 11) :
    (encJ11 o off).toNat = (config.opc o).toNat * 4096 + 2048 + off.toNat := by
  unfold encJ11
  simp only [toNat_join, BitVec.toNat_ofNat]
  omega
theorem toNat_encJB (o : Opcode) (baseR : RegIdx) :
    (encJB o baseR).toNat = (config.opc o).toNat * 4096 + baseR.val * 64 := by
  unfold encJB
  simp only [toNat_join, toNat_regBits, BitVec.toNat_ofNat]
  omega
theorem toNat_encRP9 (o : Opcode) (r : RegIdx) (off : BitVec 9) :
    (encRP9 o r off).toNat = (config.opc o).toNat * 4096 + r.val * 512 + off.toNat := by
  unfold encRP9
  simp only [toNat_join, toNat_regBits]
  omega
theorem toNat_encRB6 (o : Opcode) (r baseR : RegIdx) (off : BitVec 6) :
    (encRB6 o r baseR off).toNat = (config.opc o).toNat * 4096 + r.val * 512 + baseR.val * 64 + off.toNat := by
  unfold encRB6
  simp only [toNat_join, toNat_regBits]
  omega
theorem toNat_encT8 (v : BitVec 8) : (encT8 v).toNat = (config.opc .trap).toNat * 4096 + v.toNat := by
  unfold encT8
  simp only [toNat_join, BitVec.toNat_ofNat]
  omega
theorem toNat_encNone (o : Opcode) : (encNone o).toNat = (config.opc o).toNat * 4096 := by
  unfold encNone
  simp only [toNat_join, BitVec.toNat_ofNat]
  omega

/-! ### What the decoder answers, by opcode name -/

/-- The decoder reads the opcode first: a Word whose bits 15:12 are a name's number takes that name's arm. -/
theorem opcodeOf_field_of_toNat {w : Word} {o : Opcode} {k : Nat} (hk : k < 4096)
    (h : w.toNat = (config.opc o).toNat * 4096 + k) : opcodeOf (fieldOpcode w) = o := by
  have : fieldOpcode w = config.opc o := by
    apply BitVec.eq_of_toNat_eq
    rw [toNat_fieldOpcode, h]
    have := (config.opc o).isLt
    omega
  rw [this, opcodeOf_opc]

/-- The trap dispatch never leaves a vector without a row, and the row's range holds the vector (R88, R147). -/
theorem wf_decodeTrap (v : BitVec 8) : (decodeTrap v).wf = true := by
  revert v
  decide

end Sys2Proof
end

