-- ==== Sys2Proof/Laws/Memory.lean ====
section
/-! SUPPORT. The laws of the memory array: a read after a write, the canonical form is kept, equal contents are equal data. -/

namespace Sys2Proof.Machine.Memory

/-! ### The canonical form -/

theorem wfFrom_cons {lo a : Nat} {b : Byte} {m : Memory} :
    wfFrom lo ((a, b) :: m) = true ↔ lo ≤ a ∧ a < memBytes ∧ b ≠ unlistedByte ∧ wfFrom (a + 1) m = true := by
  simp [wfFrom, and_assoc]

theorem wfFrom_mono {lo lo' : Nat} {m : Memory} (h : lo' ≤ lo) (hm : wfFrom lo m = true) : wfFrom lo' m = true := by
  cases m with
  | nil => rfl
  | cons e m =>
    obtain ⟨h1, h2, h3, h4⟩ := wfFrom_cons.mp hm
    exact wfFrom_cons.mpr ⟨h.trans h1, h2, h3, h4⟩

/-- Below the lowest listed address nothing is listed. -/
theorem byteAt_below {lo a : Nat} {m : Memory} (hm : wfFrom lo m = true) (h : a < lo) : m.byteAt a = unlistedByte := by
  induction m generalizing lo with
  | nil => rfl
  | cons e m ih =>
    obtain ⟨h1, -, -, h4⟩ := wfFrom_cons.mp hm
    rw [byteAt, if_neg (by omega), ih h4 (by omega)]

/-- Nothing is listed outside the address space. -/
theorem byteAt_outside {lo a : Nat} {m : Memory} (hm : wfFrom lo m = true) (h : memBytes ≤ a) :
    m.byteAt a = unlistedByte := by
  induction m generalizing lo with
  | nil => rfl
  | cons e m ih =>
    obtain ⟨-, h2, -, h4⟩ := wfFrom_cons.mp hm
    rw [byteAt, if_neg (by omega), ih h4]

/-! ### One byte -/

theorem byteAt_consByte {a x : Nat} {v : Byte} {m : Memory} (hm : wfFrom (a + 1) m = true) :
    (consByte a v m).byteAt x = if x = a then v else m.byteAt x := by
  unfold consByte
  split_ifs with hv hx hx
  · rw [hx, hv, byteAt_below hm (by omega)]
  · rfl
  · rw [byteAt, if_pos hx.symm]
  · rw [byteAt, if_neg (Ne.symm hx)]

theorem wfFrom_consByte {lo a : Nat} {v : Byte} {m : Memory} (hlo : lo ≤ a) (ha : a < memBytes)
    (hm : wfFrom (a + 1) m = true) : wfFrom lo (consByte a v m) = true := by
  unfold consByte
  split_ifs with hv
  · exact wfFrom_mono (by omega) hm
  · exact wfFrom_cons.mpr ⟨hlo, ha, hv, hm⟩

/-- A byte write keeps the canonical form. -/
theorem wfFrom_setByte {lo a : Nat} {v : Byte} {m : Memory} (hlo : lo ≤ a) (ha : a < memBytes)
    (hm : wfFrom lo m = true) : wfFrom lo (m.setByte a v) = true := by
  induction m generalizing lo with
  | nil => exact wfFrom_consByte hlo ha rfl
  | cons e m ih =>
    obtain ⟨k, b⟩ := e
    obtain ⟨h1, h2, h3, h4⟩ := wfFrom_cons.mp hm
    rw [setByte]
    split_ifs with hlt heq
    · exact wfFrom_consByte hlo ha (wfFrom_cons.mpr ⟨by omega, h2, h3, h4⟩)
    · exact wfFrom_consByte hlo ha (heq ▸ h4)
    · exact wfFrom_cons.mpr ⟨h1, h2, h3, ih (by omega) h4⟩

/-- A byte read after a byte write. -/
theorem byteAt_setByte {lo a x : Nat} {v : Byte} {m : Memory} (hm : wfFrom lo m = true) :
    (m.setByte a v).byteAt x = if x = a then v else m.byteAt x := by
  induction m generalizing lo with
  | nil => exact byteAt_consByte rfl
  | cons e m ih =>
    obtain ⟨k, b⟩ := e
    obtain ⟨h1, h2, h3, h4⟩ := wfFrom_cons.mp hm
    rw [setByte]
    by_cases hlt : a < k
    · rw [if_pos hlt, byteAt_consByte (wfFrom_cons.mpr ⟨by omega, h2, h3, h4⟩)]
    rw [if_neg hlt]
    by_cases heq : a = k
    · subst heq
      rw [if_pos rfl, byteAt_consByte h4, byteAt]
      split_ifs <;> first | rfl | omega
    · rw [if_neg heq, byteAt, byteAt, ih h4]
      split_ifs <;> first | rfl | omega

/-- Two canonical memories with equal bytes are the same list. -/
theorem eq_of_byteAt {lo : Nat} {m n : Memory} (hm : wfFrom lo m = true) (hn : wfFrom lo n = true)
    (h : ∀ a, m.byteAt a = n.byteAt a) : m = n := by
  induction m generalizing lo n with
  | nil =>
    cases n with
    | nil => rfl
    | cons e n =>
      obtain ⟨-, -, h3, -⟩ := wfFrom_cons.mp hn
      exact absurd (by simpa [byteAt] using (h e.1).symm) h3
  | cons e m ih =>
    obtain ⟨k, b⟩ := e
    obtain ⟨h1, h2, h3, h4⟩ := wfFrom_cons.mp hm
    cases n with
    | nil => exact absurd (by simpa [byteAt] using h k) h3
    | cons e' n =>
      obtain ⟨k', b'⟩ := e'
      obtain ⟨g1, g2, g3, g4⟩ := wfFrom_cons.mp hn
      have hk : k = k' := by
        rcases Nat.lt_trichotomy k k' with hlt | heq | hlt
        · have := h k
          rw [byteAt, if_pos rfl, byteAt, if_neg (by omega), byteAt_below g4 (by omega)] at this
          exact absurd this h3
        · exact heq
        · have := h k'
          rw [byteAt, if_neg (by omega), byteAt_below h4 (by omega), byteAt, if_pos rfl] at this
          exact absurd this.symm g3
      subst hk
      have hb : b = b' := by simpa [byteAt] using h k
      subst hb
      rw [ih h4 g4]
      intro a
      rcases Nat.lt_or_ge k a with hlt | hge
      · simpa [byteAt, show ¬ k = a by omega] using h a
      · rw [byteAt_below h4 (by omega), byteAt_below g4 (by omega)]

/-! ### One Word -/

@[simp] theorem wf_nil : Memory.wf ([] : Memory) = true := rfl

/-- Memory that nothing has written reads as zero (R35). -/
@[simp] theorem cell_nil (a : Word) : Memory.cell ([] : Memory) a = 0x0000 := by
  rw [cell, byteAt, byteAt]
  decide

theorem two_mul_lt_memBytes (a : Word) : 2 * a.toNat + 1 < memBytes := by
  have := a.isLt
  unfold memBytes
  omega

/-- A store keeps the canonical form. -/
theorem wf_store {m : Memory} (hm : m.wf = true) (a v : Word) : (m.store a v).wf = true := by
  have := two_mul_lt_memBytes a
  exact wfFrom_setByte (by omega) this (wfFrom_setByte (by omega) (by omega) hm)

/-- The two halves of a Word make the Word. -/
theorem halves_append (v : Word) : v.extractLsb' 8 8 ++ v.extractLsb' 0 8 = v := by
  rw [BitVec.extractLsb'_append_extractLsb'_eq_extractLsb' (by omega)]
  simp

theorem byteAt_store {m : Memory} (hm : m.wf = true) (a v : Word) (x : Nat) :
    (m.store a v).byteAt x =
      if x = 2 * a.toNat then v.extractLsb' 8 8
      else if x = 2 * a.toNat + 1 then v.extractLsb' 0 8
      else m.byteAt x := by
  have := two_mul_lt_memBytes a
  unfold store
  rw [byteAt_setByte (wfFrom_setByte (Nat.zero_le _) (by omega) hm), byteAt_setByte hm]
  split_ifs <;> first | rfl | omega

/-- A read after a store: the stored Word at its own address, every other cell as before. -/
theorem cell_store {m : Memory} (hm : m.wf = true) (a v b : Word) :
    (m.store a v).cell b = if b = a then v else m.cell b := by
  unfold cell
  rw [byteAt_store hm, byteAt_store hm]
  by_cases h : b = a
  · subst h
    simp [halves_append]
  · have hne : b.toNat ≠ a.toNat := fun e => h (BitVec.eq_of_toNat_eq e)
    rw [if_neg (by omega), if_neg (by omega), if_neg (by omega), if_neg (by omega), if_neg h]

theorem cell_store_self {m : Memory} (hm : m.wf = true) (a v : Word) : (m.store a v).cell a = v := by
  simp [cell_store hm]

theorem cell_store_ne {m : Memory} (hm : m.wf = true) {a b : Word} (v : Word) (h : b ≠ a) :
    (m.store a v).cell b = m.cell b := by
  simp [cell_store hm, h]

/-- The bytes of a cell are the halves of its Word. -/
theorem byteAt_of_cell (m : Memory) (a : Word) :
    m.byteAt (2 * a.toNat) = (m.cell a).extractLsb' 8 8 ∧ m.byteAt (2 * a.toNat + 1) = (m.cell a).extractLsb' 0 8 := by
  unfold cell
  constructor
  · exact BitVec.extractLsb'_append_eq_left.symm
  · exact BitVec.extractLsb'_append_eq_right.symm

/-- Two canonical memories with equal cells are the same list. -/
theorem eq_of_cell {m n : Memory} (hm : m.wf = true) (hn : n.wf = true) (h : ∀ a, m.cell a = n.cell a) : m = n := by
  apply eq_of_byteAt hm hn
  intro x
  rcases Nat.lt_or_ge x memBytes with hx | hx
  · have hlt : x / 2 < 2 ^ 16 := by unfold memBytes at hx; omega
    have ha : (BitVec.ofNat 16 (x / 2)).toNat = x / 2 := by
      rw [BitVec.toNat_ofNat, Nat.mod_eq_of_lt hlt]
    obtain ⟨m0, m1⟩ := byteAt_of_cell m (BitVec.ofNat 16 (x / 2))
    obtain ⟨n0, n1⟩ := byteAt_of_cell n (BitVec.ofNat 16 (x / 2))
    rw [ha] at m0 m1 n0 n1
    rcases Nat.mod_two_eq_zero_or_one x with hp | hp
    · rw [show x = 2 * (x / 2) by omega, m0, n0, h]
    · rw [show x = 2 * (x / 2) + 1 by omega, m1, n1, h]
  · rw [byteAt_outside hm hx, byteAt_outside hn hx]

end Sys2Proof.Machine.Memory
end

