-- ==== Sys2Proof/Laws/State.lean ====
section
/-! SUPPORT. One lemma per field per update of State, each true by rfl, so that no later proof unfolds an update; then what
a register reads as after each update. -/

namespace Sys2Proof.Machine.State

variable (s : State)

/-! ### setReg: x[i] <- v -/

@[simp] theorem setReg_x (i : RegIdx) (v : Word) : (s.setReg i v).x = s.x.set i.val v i.isLt := rfl
@[simp] theorem setReg_pc (i : RegIdx) (v : Word) : (s.setReg i v).pc = s.pc := rfl
@[simp] theorem setReg_cond (i : RegIdx) (v : Word) : (s.setReg i v).cond = s.cond := rfl
@[simp] theorem setReg_mem (i : RegIdx) (v : Word) : (s.setReg i v).mem = s.mem := rfl
@[simp] theorem setReg_run (i : RegIdx) (v : Word) : (s.setReg i v).run = s.run := rfl
@[simp] theorem setReg_inq (i : RegIdx) (v : Word) : (s.setReg i v).inq = s.inq := rfl
@[simp] theorem setReg_out (i : RegIdx) (v : Word) : (s.setReg i v).out = s.out := rfl
@[simp] theorem setReg_polls (i : RegIdx) (v : Word) : (s.setReg i v).polls = s.polls := rfl
@[simp] theorem setReg_draws (i : RegIdx) (v : Word) : (s.setReg i v).draws = s.draws := rfl
@[simp] theorem setReg_feed (i : RegIdx) (v : Word) : (s.setReg i v).feed = s.feed := rfl

/-! ### setcc: setcc(v) -/

@[simp] theorem setcc_x (v : Word) : (s.setcc v).x = s.x := rfl
@[simp] theorem setcc_pc (v : Word) : (s.setcc v).pc = s.pc := rfl
@[simp] theorem setcc_cond (v : Word) : (s.setcc v).cond = flagOf v := rfl
@[simp] theorem setcc_mem (v : Word) : (s.setcc v).mem = s.mem := rfl
@[simp] theorem setcc_run (v : Word) : (s.setcc v).run = s.run := rfl
@[simp] theorem setcc_inq (v : Word) : (s.setcc v).inq = s.inq := rfl
@[simp] theorem setcc_out (v : Word) : (s.setcc v).out = s.out := rfl
@[simp] theorem setcc_polls (v : Word) : (s.setcc v).polls = s.polls := rfl
@[simp] theorem setcc_draws (v : Word) : (s.setcc v).draws = s.draws := rfl
@[simp] theorem setcc_feed (v : Word) : (s.setcc v).feed = s.feed := rfl

/-! ### setRegCC: x[i] <- v; setcc(v) -/

@[simp] theorem setRegCC_x (i : RegIdx) (v : Word) : (s.setRegCC i v).x = s.x.set i.val v i.isLt := rfl
@[simp] theorem setRegCC_pc (i : RegIdx) (v : Word) : (s.setRegCC i v).pc = s.pc := rfl
@[simp] theorem setRegCC_cond (i : RegIdx) (v : Word) : (s.setRegCC i v).cond = flagOf v := rfl
@[simp] theorem setRegCC_mem (i : RegIdx) (v : Word) : (s.setRegCC i v).mem = s.mem := rfl
@[simp] theorem setRegCC_run (i : RegIdx) (v : Word) : (s.setRegCC i v).run = s.run := rfl
@[simp] theorem setRegCC_inq (i : RegIdx) (v : Word) : (s.setRegCC i v).inq = s.inq := rfl
@[simp] theorem setRegCC_out (i : RegIdx) (v : Word) : (s.setRegCC i v).out = s.out := rfl
@[simp] theorem setRegCC_polls (i : RegIdx) (v : Word) : (s.setRegCC i v).polls = s.polls := rfl
@[simp] theorem setRegCC_draws (i : RegIdx) (v : Word) : (s.setRegCC i v).draws = s.draws := rfl
@[simp] theorem setRegCC_feed (i : RegIdx) (v : Word) : (s.setRegCC i v).feed = s.feed := rfl

/-! ### setPc: pc <- v -/

@[simp] theorem setPc_x (v : Word) : (s.setPc v).x = s.x := rfl
@[simp] theorem setPc_pc (v : Word) : (s.setPc v).pc = v := rfl
@[simp] theorem setPc_cond (v : Word) : (s.setPc v).cond = s.cond := rfl
@[simp] theorem setPc_mem (v : Word) : (s.setPc v).mem = s.mem := rfl
@[simp] theorem setPc_run (v : Word) : (s.setPc v).run = s.run := rfl
@[simp] theorem setPc_inq (v : Word) : (s.setPc v).inq = s.inq := rfl
@[simp] theorem setPc_out (v : Word) : (s.setPc v).out = s.out := rfl
@[simp] theorem setPc_polls (v : Word) : (s.setPc v).polls = s.polls := rfl
@[simp] theorem setPc_draws (v : Word) : (s.setPc v).draws = s.draws := rfl
@[simp] theorem setPc_feed (v : Word) : (s.setPc v).feed = s.feed := rfl

/-! ### receive: input appended by the environment -/

@[simp] theorem receive_x (bytes : List Byte) : (s.receive bytes).x = s.x := rfl
@[simp] theorem receive_pc (bytes : List Byte) : (s.receive bytes).pc = s.pc := rfl
@[simp] theorem receive_cond (bytes : List Byte) : (s.receive bytes).cond = s.cond := rfl
@[simp] theorem receive_mem (bytes : List Byte) : (s.receive bytes).mem = s.mem := rfl
@[simp] theorem receive_run (bytes : List Byte) : (s.receive bytes).run = s.run := rfl
@[simp] theorem receive_inq (bytes : List Byte) : (s.receive bytes).inq = s.inq ++ bytes := rfl
@[simp] theorem receive_out (bytes : List Byte) : (s.receive bytes).out = s.out := rfl
@[simp] theorem receive_polls (bytes : List Byte) : (s.receive bytes).polls = s.polls := rfl
@[simp] theorem receive_draws (bytes : List Byte) : (s.receive bytes).draws = s.draws := rfl
@[simp] theorem receive_feed (bytes : List Byte) : (s.receive bytes).feed = s.feed := rfl

/-! ### plan: what the environment sends and answers from here on -/

@[simp] theorem plan_x (p : List PollAnswer) (f : Option Byte) : (s.plan p f).x = s.x := rfl
@[simp] theorem plan_pc (p : List PollAnswer) (f : Option Byte) : (s.plan p f).pc = s.pc := rfl
@[simp] theorem plan_cond (p : List PollAnswer) (f : Option Byte) : (s.plan p f).cond = s.cond := rfl
@[simp] theorem plan_mem (p : List PollAnswer) (f : Option Byte) : (s.plan p f).mem = s.mem := rfl
@[simp] theorem plan_run (p : List PollAnswer) (f : Option Byte) : (s.plan p f).run = s.run := rfl
@[simp] theorem plan_inq (p : List PollAnswer) (f : Option Byte) : (s.plan p f).inq = s.inq := rfl
@[simp] theorem plan_out (p : List PollAnswer) (f : Option Byte) : (s.plan p f).out = s.out := rfl
@[simp] theorem plan_polls (p : List PollAnswer) (f : Option Byte) : (s.plan p f).polls = p := rfl
@[simp] theorem plan_draws (p : List PollAnswer) (f : Option Byte) : (s.plan p f).draws = s.draws := rfl
@[simp] theorem plan_feed (p : List PollAnswer) (f : Option Byte) : (s.plan p f).feed = f := rfl

/-! ### outByte: OutByte -/

@[simp] theorem outByte_x (b : Byte) : (s.outByte b).x = s.x := rfl
@[simp] theorem outByte_pc (b : Byte) : (s.outByte b).pc = s.pc := rfl
@[simp] theorem outByte_cond (b : Byte) : (s.outByte b).cond = s.cond := rfl
@[simp] theorem outByte_mem (b : Byte) : (s.outByte b).mem = s.mem := rfl
@[simp] theorem outByte_run (b : Byte) : (s.outByte b).run = s.run := rfl
@[simp] theorem outByte_inq (b : Byte) : (s.outByte b).inq = s.inq := rfl
@[simp] theorem outByte_out (b : Byte) : (s.outByte b).out = s.out ++ [b] := rfl
@[simp] theorem outByte_polls (b : Byte) : (s.outByte b).polls = s.polls := rfl
@[simp] theorem outByte_draws (b : Byte) : (s.outByte b).draws = s.draws := rfl
@[simp] theorem outByte_feed (b : Byte) : (s.outByte b).feed = s.feed := rfl

/-! ### outBytes: OutByte of each byte -/

@[simp] theorem outBytes_x (bytes : List Byte) : (s.outBytes bytes).x = s.x := rfl
@[simp] theorem outBytes_pc (bytes : List Byte) : (s.outBytes bytes).pc = s.pc := rfl
@[simp] theorem outBytes_cond (bytes : List Byte) : (s.outBytes bytes).cond = s.cond := rfl
@[simp] theorem outBytes_mem (bytes : List Byte) : (s.outBytes bytes).mem = s.mem := rfl
@[simp] theorem outBytes_run (bytes : List Byte) : (s.outBytes bytes).run = s.run := rfl
@[simp] theorem outBytes_inq (bytes : List Byte) : (s.outBytes bytes).inq = s.inq := rfl
@[simp] theorem outBytes_out (bytes : List Byte) : (s.outBytes bytes).out = s.out ++ bytes := rfl
@[simp] theorem outBytes_polls (bytes : List Byte) : (s.outBytes bytes).polls = s.polls := rfl
@[simp] theorem outBytes_draws (bytes : List Byte) : (s.outBytes bytes).draws = s.draws := rfl
@[simp] theorem outBytes_feed (bytes : List Byte) : (s.outBytes bytes).feed = s.feed := rfl

/-! ### memWrite: MemWrite -/

@[simp] theorem memWrite_x (a v : Word) : (s.memWrite a v).x = s.x := rfl
@[simp] theorem memWrite_pc (a v : Word) : (s.memWrite a v).pc = s.pc := rfl
@[simp] theorem memWrite_cond (a v : Word) : (s.memWrite a v).cond = s.cond := rfl
@[simp] theorem memWrite_mem (a v : Word) : (s.memWrite a v).mem = s.mem.store a v := rfl
@[simp] theorem memWrite_run (a v : Word) : (s.memWrite a v).run = s.run := rfl
@[simp] theorem memWrite_inq (a v : Word) : (s.memWrite a v).inq = s.inq := rfl
@[simp] theorem memWrite_out (a v : Word) : (s.memWrite a v).out = s.out := rfl
@[simp] theorem memWrite_polls (a v : Word) : (s.memWrite a v).polls = s.polls := rfl
@[simp] theorem memWrite_draws (a v : Word) : (s.memWrite a v).draws = s.draws := rfl
@[simp] theorem memWrite_feed (a v : Word) : (s.memWrite a v).feed = s.feed := rfl

/-! ### link: the link write -/

@[simp] theorem link_x : (s.link).x = s.x.set linkReg.val s.pc linkReg.isLt := rfl
@[simp] theorem link_pc : (s.link).pc = s.pc := rfl
@[simp] theorem link_cond : (s.link).cond = s.cond := rfl
@[simp] theorem link_mem : (s.link).mem = s.mem := rfl
@[simp] theorem link_run : (s.link).run = s.run := rfl
@[simp] theorem link_inq : (s.link).inq = s.inq := rfl
@[simp] theorem link_out : (s.link).out = s.out := rfl
@[simp] theorem link_polls : (s.link).polls = s.polls := rfl
@[simp] theorem link_draws : (s.link).draws = s.draws := rfl
@[simp] theorem link_feed : (s.link).feed = s.feed := rfl

/-! ### raise: a fatal condition -/

@[simp] theorem raise_x (c : FatalCause) : (s.raise c).x = s.x := rfl
@[simp] theorem raise_pc (c : FatalCause) : (s.raise c).pc = s.pc := rfl
@[simp] theorem raise_cond (c : FatalCause) : (s.raise c).cond = s.cond := rfl
@[simp] theorem raise_mem (c : FatalCause) : (s.raise c).mem = s.mem := rfl
@[simp] theorem raise_run (c : FatalCause) : (s.raise c).run = .fatal c := rfl
@[simp] theorem raise_inq (c : FatalCause) : (s.raise c).inq = s.inq := rfl
@[simp] theorem raise_out (c : FatalCause) : (s.raise c).out = s.out := rfl
@[simp] theorem raise_polls (c : FatalCause) : (s.raise c).polls = s.polls := rfl
@[simp] theorem raise_draws (c : FatalCause) : (s.raise c).draws = s.draws := rfl
@[simp] theorem raise_feed (c : FatalCause) : (s.raise c).feed = s.feed := rfl

/-! ### halt: run <- HALTED -/

@[simp] theorem halt_x : (s.halt).x = s.x := rfl
@[simp] theorem halt_pc : (s.halt).pc = s.pc := rfl
@[simp] theorem halt_cond : (s.halt).cond = s.cond := rfl
@[simp] theorem halt_mem : (s.halt).mem = s.mem := rfl
@[simp] theorem halt_run : (s.halt).run = .halted := rfl
@[simp] theorem halt_inq : (s.halt).inq = s.inq := rfl
@[simp] theorem halt_out : (s.halt).out = s.out := rfl
@[simp] theorem halt_polls : (s.halt).polls = s.polls := rfl
@[simp] theorem halt_draws : (s.halt).draws = s.draws := rfl
@[simp] theorem halt_feed : (s.halt).feed = s.feed := rfl

/-! ### Registers -/

/-- A register write changes one register (10_state.md R20). -/
@[simp] theorem reg_setReg (i j : RegIdx) (v : Word) : (s.setReg i v).reg j = if j = i then v else s.reg j := by
  simp [reg, setReg, Vector.getElem_set, Fin.ext_iff, eq_comm]

@[simp] theorem reg_setRegCC (i j : RegIdx) (v : Word) : (s.setRegCC i v).reg j = if j = i then v else s.reg j :=
  reg_setReg s i j v

@[simp] theorem reg_link (j : RegIdx) : s.link.reg j = if j = linkReg then s.pc else s.reg j :=
  reg_setReg s linkReg j s.pc

@[simp] theorem reg_setcc (j : RegIdx) (v : Word) : (s.setcc v).reg j = s.reg j := rfl
@[simp] theorem reg_setPc (j : RegIdx) (v : Word) : (s.setPc v).reg j = s.reg j := rfl
@[simp] theorem reg_receive (j : RegIdx) (bytes : List Byte) : (s.receive bytes).reg j = s.reg j := rfl
@[simp] theorem reg_plan (j : RegIdx) (p : List PollAnswer) (f : Option Byte) : (s.plan p f).reg j = s.reg j := rfl
@[simp] theorem reg_outByte (j : RegIdx) (b : Byte) : (s.outByte b).reg j = s.reg j := rfl
@[simp] theorem reg_outBytes (j : RegIdx) (bytes : List Byte) : (s.outBytes bytes).reg j = s.reg j := rfl
@[simp] theorem reg_memWrite (j : RegIdx) (a v : Word) : (s.memWrite a v).reg j = s.reg j := rfl
@[simp] theorem reg_raise (j : RegIdx) (c : FatalCause) : (s.raise c).reg j = s.reg j := rfl
@[simp] theorem reg_halt (j : RegIdx) : (s.halt).reg j = s.reg j := rfl

/-- The pc is not a general register, so fetch's increment leaves them alone. -/
theorem reg_congr (t : State) (h : t.x = s.x) (j : RegIdx) : t.reg j = s.reg j := by
  simp [reg, h]

/-- Two states with the same eight registers have the same register file. -/
theorem x_eq_of_reg_eq (t : State) (h : ∀ j, t.reg j = s.reg j) : t.x = s.x := by
  apply Vector.ext
  intro i hi
  exact h ⟨i, hi⟩

/-- At reset every general register is zero (R35). -/
@[simp] theorem reg_reset (j : RegIdx) : reset.reg j = 0x0000 := by
  simp [reg, reset]

end Sys2Proof.Machine.State
end

