-- ==== Sys2Proof/Laws/Ops.lean ====
section
/-! SUPPORT. What each shared operation can do, said once: the flags, the console, the poll, MemRead, the string scan. Later
proofs cite these and unfold none of the operations. -/

namespace Sys2Proof.Machine

/-! ### Configuration -/

/-- The parameters meet the constraints of 00_scope.md R6. -/
theorem config_wf : config.wf = true := by decide

theorem kbdrAddr_ne_kbsrAddr : config.kbdrAddr ≠ config.kbsrAddr := by decide

/-! ### Flags -/

theorem flagOf_of_zero {v : Word} (h : v = 0x0000) : flagOf v = config.flZro := by simp [flagOf, h]

theorem flagOf_of_neg {v : Word} (h : v.getLsbD 15 = true) : flagOf v = config.flNeg := by
  have h0 : v ≠ 0x0000 := by rintro rfl; simp at h
  rw [flagOf, if_neg h0, if_pos h]

theorem flagOf_of_pos {v : Word} (h0 : v ≠ 0x0000) (h : v.getLsbD 15 = false) : flagOf v = config.flPos := by
  rw [flagOf, if_neg h0, if_neg (by rw [h]; decide)]

/-- setcc always leaves one of the three flag Words. -/
theorem flagOf_cases (v : Word) : flagOf v = config.flPos ∨ flagOf v = config.flZro ∨ flagOf v = config.flNeg := by
  unfold flagOf
  split_ifs <;> simp

/-- Bit 15 of a zero-extended byte is 0, so it is never NEGATIVE. -/
theorem getLsbD_15_zext8 (b : Byte) : (zext8 b).getLsbD 15 = false := by simp [zext8]

/-! ### InReady and InByte -/

namespace State

variable (s : State)

/-! ### arrive: what the environment has sent before a poll looks -/

@[simp] theorem arrive_x : s.arrive.x = s.x := by unfold arrive; split <;> rfl
@[simp] theorem arrive_pc : s.arrive.pc = s.pc := by unfold arrive; split <;> rfl
@[simp] theorem arrive_cond : s.arrive.cond = s.cond := by unfold arrive; split <;> rfl
@[simp] theorem arrive_mem : s.arrive.mem = s.mem := by unfold arrive; split <;> rfl
@[simp] theorem arrive_run : s.arrive.run = s.run := by unfold arrive; split <;> rfl
@[simp] theorem arrive_out : s.arrive.out = s.out := by unfold arrive; split <;> rfl
@[simp] theorem arrive_feed : s.arrive.feed = s.feed := by unfold arrive; split <;> rfl
@[simp] theorem arrive_draws : s.arrive.draws = s.draws := by unfold arrive; split <;> rfl

/-- The bytes that arrive with the next call of InReady(). -/
def arriving : List Byte :=
  match s.polls with
  | p :: _ => p.arrived
  | [] => s.feed.toList

theorem arriving_of_polls {p : PollAnswer} {rest : List PollAnswer} (h : s.polls = p :: rest) :
    s.arriving = p.arrived := by simp [arriving, h]

theorem arriving_of_nil (h : s.polls = []) : s.arriving = s.feed.toList := by simp [arriving, h]

/-- They reach the end of the queue. -/
@[simp] theorem arrive_inq : s.arrive.inq = s.inq ++ s.arriving := by
  unfold arrive arriving
  split
  · next h => simp [h]
  · next h hf => simp [h, hf]
  · next h hf => simp [h, hf]

/-! ### InReady -/

@[simp] theorem inReady_x : s.inReady.2.x = s.x := by unfold inReady; split <;> rfl
@[simp] theorem inReady_pc : s.inReady.2.pc = s.pc := by unfold inReady; split <;> rfl
@[simp] theorem inReady_cond : s.inReady.2.cond = s.cond := by unfold inReady; split <;> rfl
@[simp] theorem inReady_mem : s.inReady.2.mem = s.mem := by unfold inReady; split <;> rfl
@[simp] theorem inReady_run : s.inReady.2.run = s.run := by unfold inReady; split <;> rfl
@[simp] theorem inReady_inq : s.inReady.2.inq = s.inq := by unfold inReady; split <;> rfl
@[simp] theorem inReady_out : s.inReady.2.out = s.out := by unfold inReady; split <;> rfl
@[simp] theorem inReady_feed : s.inReady.2.feed = s.feed := by unfold inReady; split <;> rfl

/-- One answer of the list is used, if there is one. -/
@[simp] theorem inReady_polls : s.inReady.2.polls = s.polls.tail := by
  unfold inReady
  split
  · next h => simp [h]
  · next h _ => simp [h]
  · next h _ => simp [h]

@[simp] theorem arrive_polls_tail : s.arrive.polls.tail = s.polls.tail := by
  unfold arrive
  split
  · next h => simp [h]
  · rfl
  · rfl

/-- InReady() may be true only when a byte is pending (10_state.md R30). -/
theorem inq_ne_nil_of_inReady (h : s.inReady.1 = true) : s.inq ≠ [] := by
  intro hq
  unfold inReady at h
  split at h <;> simp [hq] at h

/-- With nothing pending the answer is false. -/
theorem inReady_of_nil (h : s.inq = []) : s.inReady.1 = false := by
  by_contra hb
  exact s.inq_ne_nil_of_inReady (by simpa using hb) h

/-- A listed answer is given as listed while a byte is pending. -/
theorem inReady_of_polls {p : PollAnswer} {rest : List PollAnswer} (h : s.polls = p :: rest) (hq : s.inq ≠ []) :
    s.inReady = (p.ready, { s with polls := rest }) := by
  unfold inReady
  split
  · next h' =>
    obtain ⟨rfl, rfl⟩ := List.cons.inj (h.symm.trans h')
    simp [hq]
  · next h' _ => simp [h'] at h
  · next h' _ => simp [h'] at h

/-- An endless feed makes every poll after the listed ones ready. -/
theorem arrive_inReady_of_feed {b : Byte} (hp : s.polls = []) (hf : s.feed = some b) : s.arrive.inReady.1 = true := by
  have ha : s.arrive = { s with inq := s.inq ++ [b] } := by
    unfold arrive
    split
    · next h => simp [hp] at h
    · next h' =>
      obtain rfl := Option.some.inj (hf.symm.trans h')
      rfl
    · next h' => simp [hf] at h'
  rw [ha]
  unfold inReady
  split
  · next h => simp [hp] at h
  · simp
  · next h' => simp [hf] at h'

/-! ### The poll (20_memory.md R53) -/

/-- A not-ready poll clears the status Word and does nothing else to core or console. -/
theorem poll_of_not_ready (h : s.arrive.inReady.1 = false) :
    s.poll = s.arrive.inReady.2.memWrite config.kbsrAddr 0x0000 := by
  unfold poll
  split
  · next h' => simp [h'] at h
  · next h' => rw [h']

/-- A ready poll sets the status Word to 0x8000 and moves the oldest byte into the data Word. -/
theorem poll_of_ready (h : s.arrive.inReady.1 = true) :
    ∃ b rest, s.inq ++ s.arriving = b :: rest ∧
      s.poll = { s.arrive.inReady.2 with
        inq := rest
        mem := (s.mem.store config.kbsrAddr 0x8000).store config.kbdrAddr (b.setWidth 16) } := by
  obtain ⟨b, rest, hq⟩ := List.exists_cons_of_ne_nil (s.arrive.inq_ne_nil_of_inReady h)
  refine ⟨b, rest, s.arrive_inq ▸ hq, ?_⟩
  unfold poll
  split
  · next s1 h' =>
    have hq1 : s1.inq = b :: rest := by
      have := s.arrive.inReady_inq
      rw [h'] at this
      exact this.trans hq
    have hm : s1.mem = s.mem := by
      have := s.arrive.inReady_mem
      rw [h'] at this
      simpa using this
    simp [inByte, hq1, h', memWrite, hm]
  · next h' => simp [h'] at h

@[simp] theorem poll_x : s.poll.x = s.x := by
  cases h : s.arrive.inReady.1 with
  | false => simp [s.poll_of_not_ready h]
  | true => obtain ⟨b, r, -, hp⟩ := s.poll_of_ready h; simp [hp]
@[simp] theorem poll_pc : s.poll.pc = s.pc := by
  cases h : s.arrive.inReady.1 with
  | false => simp [s.poll_of_not_ready h]
  | true => obtain ⟨b, r, -, hp⟩ := s.poll_of_ready h; simp [hp]
@[simp] theorem poll_cond : s.poll.cond = s.cond := by
  cases h : s.arrive.inReady.1 with
  | false => simp [s.poll_of_not_ready h]
  | true => obtain ⟨b, r, -, hp⟩ := s.poll_of_ready h; simp [hp]
@[simp] theorem poll_run : s.poll.run = s.run := by
  cases h : s.arrive.inReady.1 with
  | false => simp [s.poll_of_not_ready h]
  | true => obtain ⟨b, r, -, hp⟩ := s.poll_of_ready h; simp [hp]
@[simp] theorem poll_out : s.poll.out = s.out := by
  cases h : s.arrive.inReady.1 with
  | false => simp [s.poll_of_not_ready h]
  | true => obtain ⟨b, r, -, hp⟩ := s.poll_of_ready h; simp [hp]
@[simp] theorem poll_feed : s.poll.feed = s.feed := by
  cases h : s.arrive.inReady.1 with
  | false => simp [s.poll_of_not_ready h]
  | true => obtain ⟨b, r, -, hp⟩ := s.poll_of_ready h; simp [hp]
@[simp] theorem poll_polls : s.poll.polls = s.polls.tail := by
  cases h : s.arrive.inReady.1 with
  | false => simp [s.poll_of_not_ready h]
  | true => obtain ⟨b, r, -, hp⟩ := s.poll_of_ready h; simp [hp]

/-- The poll keeps memory's canonical form. -/
theorem wf_poll (hm : s.mem.wf = true) : s.poll.mem.wf = true := by
  cases h : s.arrive.inReady.1 with
  | false => simpa [s.poll_of_not_ready h] using Memory.wf_store hm _ _
  | true =>
    obtain ⟨b, r, -, hp⟩ := s.poll_of_ready h
    simpa [hp] using Memory.wf_store (Memory.wf_store hm _ _) _ _

/-- After a not-ready poll: the status cell is 0, every other cell is as before, no input is taken. -/
theorem poll_not_ready_spec (hm : s.mem.wf = true) (h : s.arrive.inReady.1 = false) :
    (∀ a, s.poll.mem.cell a = if a = config.kbsrAddr then 0x0000 else s.mem.cell a) ∧
      s.poll.inq = s.inq ++ s.arriving := by
  simp [s.poll_of_not_ready h, Memory.cell_store hm]

/-- After a ready poll: the status cell is 0x8000, the data cell is the oldest input byte, which is gone from the queue,
and every other cell is as before. -/
theorem poll_ready_spec (hm : s.mem.wf = true) (h : s.arrive.inReady.1 = true) :
    ∃ b rest, s.inq ++ s.arriving = b :: rest ∧ s.poll.inq = rest ∧
      ∀ a, s.poll.mem.cell a = if a = config.kbdrAddr then b.setWidth 16
        else if a = config.kbsrAddr then 0x8000 else s.mem.cell a := by
  obtain ⟨b, rest, hq, hp⟩ := s.poll_of_ready h
  refine ⟨b, rest, hq, by simp [hp], fun a => ?_⟩
  simp [hp, Memory.cell_store hm, Memory.cell_store (Memory.wf_store hm _ _)]

/-- What the next poll brings is out of what is still to come. -/
theorem coming_eq : s.coming = s.inq.length + (s.polls.map (·.arrived.length)).sum := rfl

/-- Without an endless feed, a poll takes its byte, if it is ready, from those to come, and none is added to them. -/
theorem coming_poll (hf : s.feed = none) :
    s.poll.coming + (if s.arrive.inReady.1 then 1 else 0) = s.coming := by
  have hc : (s.inq ++ s.arriving).length + (s.polls.tail.map (·.arrived.length)).sum = s.coming := by
    cases hp : s.polls with
    | nil => simp [coming_eq, arriving, hp, hf]
    | cons p rest => simp [coming_eq, arriving, hp]; omega
  cases h : s.arrive.inReady.1 with
  | false => simpa [s.poll_of_not_ready h, coming_eq] using hc
  | true =>
    obtain ⟨b, rest, hq, hp⟩ := s.poll_of_ready h
    rw [hq] at hc
    simp [hp, coming_eq] at hc ⊢
    omega

/-! ### MemRead (20_memory.md R52) -/

/-- Every read but one is plain. -/
theorem memRead_plain {a : Word} (h : a ≠ config.kbsrAddr) : s.memRead a = (s.mem.cell a, s) := by
  simp [memRead, h]

theorem memRead_status : s.memRead config.kbsrAddr = (s.poll.mem.cell config.kbsrAddr, s.poll) := by
  simp [memRead]

/-- MemRead's state is the state before, or the state after one poll. -/
theorem memRead_snd (a : Word) : (s.memRead a).2 = if a = config.kbsrAddr then s.poll else s := by
  unfold memRead
  split <;> rfl

@[simp] theorem memRead_x (a : Word) : (s.memRead a).2.x = s.x := by rw [memRead_snd]; split <;> simp
@[simp] theorem memRead_pc (a : Word) : (s.memRead a).2.pc = s.pc := by rw [memRead_snd]; split <;> simp
@[simp] theorem memRead_cond (a : Word) : (s.memRead a).2.cond = s.cond := by rw [memRead_snd]; split <;> simp
@[simp] theorem memRead_run (a : Word) : (s.memRead a).2.run = s.run := by rw [memRead_snd]; split <;> simp
@[simp] theorem memRead_out (a : Word) : (s.memRead a).2.out = s.out := by rw [memRead_snd]; split <;> simp
@[simp] theorem memRead_feed (a : Word) : (s.memRead a).2.feed = s.feed := by rw [memRead_snd]; split <;> simp
@[simp] theorem memRead_reg (a : Word) (j : RegIdx) : (s.memRead a).2.reg j = s.reg j := reg_congr _ _ (by simp) j

theorem wf_memRead (a : Word) (hm : s.mem.wf = true) : (s.memRead a).2.mem.wf = true := by
  rw [memRead_snd]
  split
  · exact s.wf_poll hm
  · exact hm

/-- The status read answers 0x8000 when the poll finds input ready, else 0x0000 (R53). -/
theorem memRead_status_fst (hm : s.mem.wf = true) :
    (s.memRead config.kbsrAddr).1 = if s.arrive.inReady.1 then 0x8000 else 0x0000 := by
  rw [memRead_status]
  cases h : s.arrive.inReady.1 with
  | false => simpa using (s.poll_not_ready_spec hm h).1 config.kbsrAddr
  | true =>
    obtain ⟨b, rest, -, -, hc⟩ := s.poll_ready_spec hm h
    simpa [Ne.symm kbdrAddr_ne_kbsrAddr] using hc config.kbsrAddr

/-- Reads never touch a cell other than the two console cells (R53). -/
theorem memRead_cell_other (hm : s.mem.wf = true) {a b : Word} (h1 : b ≠ config.kbsrAddr) (h2 : b ≠ config.kbdrAddr) :
    (s.memRead a).2.mem.cell b = s.mem.cell b := by
  rw [memRead_snd]
  split
  · cases h : s.arrive.inReady.1 with
    | false => simpa [h1] using (s.poll_not_ready_spec hm h).1 b
    | true =>
      obtain ⟨_, _, _, _, hc⟩ := s.poll_ready_spec hm h
      simpa [h1, h2] using hc b
  · rfl

/-- What arrives during `n` calls of InReady() past the `k` listed ones used: the listed bytes, then the endless feed's. -/
def arrivals (k n : Nat) : List Byte := (s.polls.take k).flatMap (·.arrived) ++ (s.feed.toList.flatMap (List.replicate n))

/-- One poll: the bytes it brings go to the end of the queue, and what it takes leaves from the front. -/
theorem poll_inq : ∃ taken, s.inq ++ s.arriving = taken ++ s.poll.inq := by
  cases h : s.arrive.inReady.1 with
  | false => exact ⟨[], by simp [s.poll_of_not_ready h]⟩
  | true =>
    obtain ⟨b, rest, hq, hp⟩ := s.poll_of_ready h
    exact ⟨[b], by simp [hp, hq]⟩

/-- How `t` can follow `s` as to input: listed answers used from the front, their bytes (and the feed's, once none is listed)
at the end of the queue, taken bytes gone from its front, the feed itself unchanged. -/
def InputFollows (s t : State) : Prop :=
  t.feed = s.feed ∧ ∃ k n taken, t.polls = s.polls.drop k ∧ (0 < n → t.polls = []) ∧
    s.inq ++ s.arrivals k n = taken ++ t.inq

theorem InputFollows.refl : InputFollows s s := ⟨rfl, 0, 0, [], by simp [arrivals]⟩

/-- Taking from the front of the queue is a way to follow. -/
theorem InputFollows.take {s t u : State} (h : InputFollows s t) {taken : List Byte} (hq : t.inq = taken ++ u.inq)
    (hp : u.polls = t.polls) (hf : u.feed = t.feed) : InputFollows s u := by
  obtain ⟨h1, k, n, tk, h2, h3, h4⟩ := h
  exact ⟨hf.trans h1, k, n, tk ++ taken, hp.trans h2, fun hn => hp.trans (h3 hn), by rw [h4, hq, List.append_assoc]⟩

/-- So is a poll. -/
theorem InputFollows.poll {s t : State} (h : InputFollows s t) : InputFollows s t.poll := by
  obtain ⟨h1, k, n, tk, h2, h3, h4⟩ := h
  obtain ⟨tk', hq⟩ := t.poll_inq
  refine ⟨t.poll_feed.trans h1, ?_⟩
  cases hp : t.polls with
  | cons p rest =>
    refine ⟨k + 1, 0, tk ++ tk', by rw [poll_polls, h2, List.tail_drop], by simp, ?_⟩
    have hn : n = 0 := by
      by_contra hn
      simp [h3 (by omega)] at hp
    subst hn
    rw [t.arriving_of_polls hp] at hq
    have htake : s.polls.take (k + 1) = s.polls.take k ++ [p] := by
      rw [List.take_add_one, ← List.head?_drop, ← h2, hp]
      rfl
    have h0 : ∀ k, s.arrivals k 0 = (s.polls.take k).flatMap (·.arrived) := fun k => by
      rw [arrivals]
      cases s.feed <;> simp
    rw [h0] at h4
    rw [h0, htake, List.flatMap_append, ← List.append_assoc, h4, List.append_assoc, List.append_assoc, ← hq]
    simp
  | nil =>
    refine ⟨k, n + 1, tk ++ tk', by simp [hp, ← h2], by simp [hp], ?_⟩
    rw [t.arriving_of_nil hp, h1] at hq
    have : s.arrivals k (n + 1) = s.arrivals k n ++ s.feed.toList := by
      rw [arrivals, arrivals]
      cases s.feed <;> simp [List.replicate_succ']
    rw [this, List.append_assoc, ← hq, ← List.append_assoc, h4, List.append_assoc]

/-- So is a read. -/
theorem InputFollows.memRead {s t : State} (h : InputFollows s t) (a : Word) : InputFollows s (t.memRead a).2 := by
  rw [memRead_snd]
  split
  · exact h.poll
  · exact h

/-- Without an endless feed a read adds nothing to the input still to come, and a status read that answers other than zero
has taken one of its bytes. -/
theorem coming_memRead (hf : s.feed = none) (a : Word) : (s.memRead a).2.coming ≤ s.coming := by
  rw [memRead_snd]
  split
  · have := s.coming_poll hf
    omega
  · exact Nat.le_refl _

theorem coming_memRead_status (hm : s.mem.wf = true) (hf : s.feed = none) (h : (s.memRead config.kbsrAddr).1 ≠ 0x0000) :
    (s.memRead config.kbsrAddr).2.coming + 1 = s.coming := by
  rw [s.memRead_status_fst hm] at h
  have hr : s.arrive.inReady.1 = true := by
    by_contra hr
    simp [hr] at h
  simpa [memRead_status, hr] using s.coming_poll hf

/-! ### The string scan of PUTS and PUTSP (43_trap.md R143, R145) -/

variable (f : Word → List Byte)

/-- A zero Word ends the scan. -/
theorem writeString_stop {n : Nat} {a : Word} (h : (s.memRead a).1 = 0x0000) :
    s.writeString f (n + 1) a = some (s.memRead a).2 := by
  exact if_pos h

/-- Any other Word is written, and the scan goes on at the next address. -/
theorem writeString_next {n : Nat} {a : Word} (h : (s.memRead a).1 ≠ 0x0000) :
    s.writeString f (n + 1) a =
      ((s.memRead a).2.outBytes (f (s.memRead a).1)).writeString f n (a + 1) := by
  exact if_neg h

/-- The scan's induction, once: what every read and every output keeps, the whole scan keeps. -/
theorem writeString_keeps {P : State → Prop} (hread : ∀ t a, P t → P (State.memRead t a).2)
    (hout : ∀ t bytes, P t → P (State.outBytes t bytes)) {n : Nat} {a : Word} {t : State} (hs : P s)
    (h : s.writeString f n a = some t) : P t := by
  induction n generalizing s a with
  | zero => exact absurd h (by simp [writeString])
  | succ n ih =>
    by_cases hw : (s.memRead a).1 = 0x0000
    · rw [s.writeString_stop f hw] at h
      exact Option.some.inj h ▸ hread s a hs
    · rw [s.writeString_next f hw] at h
      exact ih _ (hout _ _ (hread s a hs)) h

/-- A scan with reads enough for its distance to the status address, plus one lap of memory for each byte to come, meets its
zero Word if input ever stops: it passes the status address once a lap, and each pass that does not end it takes a byte. -/
theorem writeString_completes {n : Nat} {a : Word} (hm : s.mem.wf = true) (hf : s.feed = none)
    (hn : (config.kbsrAddr - a).toNat + 65536 * s.coming < n) : ∃ t, s.writeString f n a = some t := by
  induction n generalizing s a with
  | zero => omega
  | succ n ih =>
    by_cases hw : (s.memRead a).1 = 0x0000
    · exact ⟨_, s.writeString_stop f hw⟩
    · rw [s.writeString_next f hw]
      apply ih
      · exact s.wf_memRead a hm
      · simpa using hf
      · have hc : ((s.memRead a).2.outBytes (f (s.memRead a).1)).coming = (s.memRead a).2.coming := rfl
        rw [hc]
        by_cases ha : a = config.kbsrAddr
        · subst ha
          have := s.coming_memRead_status hm hf hw
          have h1 : (config.kbsrAddr - (config.kbsrAddr + 1)).toNat = 65535 := by decide
          have h2 : (config.kbsrAddr - config.kbsrAddr).toNat = 0 := by decide
          omega
        · rw [s.memRead_plain ha]
          have h1 : config.kbsrAddr - a ≠ 0 := fun e => ha (by bv_omega)
          bv_omega

/-- PUTS and PUTSP complete whenever the environment does not feed without end (R143; log 11). -/
theorem putString_completes (hm : s.mem.wf = true) (hf : s.feed = none) :
    ∃ t, s.writeString f s.scanFuel (s.reg trapReg) = some t ∧ s.putString f = .next t := by
  obtain ⟨t, ht⟩ := s.writeString_completes f (n := s.scanFuel) (a := s.reg trapReg) hm hf (by
    have := (config.kbsrAddr - s.reg trapReg).isLt
    unfold scanFuel
    omega)
  exact ⟨t, ht, by rw [putString, ht]⟩

/-- A scan over cells none of which is the status register, the first zero one at distance k: it writes the bytes of the k
Words before it and changes nothing else. -/
theorem writeString_plain {n k : Nat} {a : Word} (hk : k < n)
    (hplain : ∀ i ≤ k, a + BitVec.ofNat 16 i ≠ config.kbsrAddr)
    (hword : ∀ i < k, s.mem.cell (a + BitVec.ofNat 16 i) ≠ 0x0000)
    (hzero : s.mem.cell (a + BitVec.ofNat 16 k) = 0x0000) :
    s.writeString f n a =
      some (s.outBytes ((List.range k).flatMap fun i => f (s.mem.cell (a + BitVec.ofNat 16 i)))) := by
  induction k generalizing s a n with
  | zero =>
    obtain ⟨n, rfl⟩ : ∃ m, n = m + 1 := ⟨n - 1, by omega⟩
    have h0 : a + BitVec.ofNat 16 0 = a := by simp
    have hp := hplain 0 (Nat.le_refl 0)
    rw [h0] at hp hzero
    rw [s.writeString_stop f (by rw [s.memRead_plain hp]; exact hzero), s.memRead_plain hp]
    simp [outBytes]
  | succ k ih =>
    obtain ⟨n, rfl⟩ : ∃ m, n = m + 1 := ⟨n - 1, by omega⟩
    have h0 : a + BitVec.ofNat 16 0 = a := by simp
    have hp := hplain 0 (Nat.zero_le _)
    have hw := hword 0 (Nat.succ_pos k)
    rw [h0] at hp hw
    have hs : ∀ i, a + 1 + BitVec.ofNat 16 i = a + BitVec.ofNat 16 (i + 1) := fun i => by
      rw [BitVec.add_assoc]
      congr 1
      bv_omega
    rw [s.writeString_next f (by rw [s.memRead_plain hp]; exact hw), s.memRead_plain hp, ih]
    · simp only [outBytes_mem, hs]
      simp [outBytes, List.range_succ_eq_map, List.flatMap_cons, List.flatMap_map, h0]
    · omega
    · intro i hi
      rw [hs]
      exact hplain (i + 1) (by omega)
    · intro i hi
      rw [hs, outBytes_mem]
      exact hword (i + 1) (by omega)
    · rw [hs, outBytes_mem]
      exact hzero

end State

end Sys2Proof.Machine
end

