-- ==== Sys2Proof/Laws/Scan.lean ====
section
/-! SUPPORT. The scan of PUTS and PUTSP that never ends (43_trap.md R143, 45_execution_loop.md R163): how a scan goes round
memory, when it goes on for ever, and that the machine's bound on reads stops no other scan. -/

namespace Sys2Proof.Machine.State

variable (f : Word → List Byte)

/-- The scan from `a` has not ended within `n` reads. -/
def Going (n : Nat) (a : Word) (s : State) : Prop := s.writeString f n a = none

variable {f} {s : State} {n : Nat} {a : Word}

/-! ### One read -/

/-- A poll does not see what has been written to the output. -/
theorem poll_outBytes (s : State) (o : List Byte) : (s.outBytes o).poll = { s.poll with out := s.out ++ o } := by
  obtain ⟨x, pc, cond, mem, run, inq, out, polls, feed, draws⟩ := s
  simp only [poll, arrive, inReady, outBytes]
  rcases polls with _ | ⟨⟨arrived, ready⟩, rest⟩
  · rcases feed with _ | b
    · generalize Config.inReadyDraw draws = answer
      cases answer <;> cases inq <;> rfl
    · cases inq <;> rfl
  · cases ready <;> cases inq <;> cases arrived <;> rfl

/-- Nor does a read. -/
theorem memRead_outBytes (s : State) (o : List Byte) (a : Word) :
    (s.outBytes o).memRead a = ((s.memRead a).1, { (s.memRead a).2 with out := s.out ++ o }) := by
  unfold memRead
  split_ifs with h
  · rw [s.poll_outBytes o]
  · rfl

/-- So it goes on or ends whatever the output holds. -/
theorem going_outBytes (o : List Byte) : Going f n a (s.outBytes o) ↔ Going f n a s := by
  induction n generalizing s a o with
  | zero => exact Iff.rfl
  | succ n ih =>
    have h := s.memRead_outBytes o a
    by_cases hw : (s.memRead a).1 = 0x0000
    · rw [Going, Going, (s.outBytes o).writeString_stop f (by rw [h]; exact hw), s.writeString_stop f hw]
      simp
    · rw [Going, Going, (s.outBytes o).writeString_next f (by rw [h]; exact hw), s.writeString_next f hw, h]
      have e : ({ (s.memRead a).2 with out := s.out ++ o } : State) = (s.memRead a).2.outBytes o := by
        rw [outBytes, s.memRead_out]
      rw [e]
      exact (ih _).trans ((ih o).trans (ih _).symm)

/-- A scan goes on past one more read when that read is not zero. -/
theorem going_succ : Going f (n + 1) a s ↔ (s.memRead a).1 ≠ 0x0000 ∧ Going f n (a + 1) (s.memRead a).2 := by
  by_cases hw : (s.memRead a).1 = 0x0000
  · simp [Going, s.writeString_stop f hw, hw]
  · rw [Going, s.writeString_next f hw]
    exact ⟨fun h => ⟨hw, (going_outBytes _).mp h⟩, fun h => (going_outBytes _).mpr h.2⟩

/-- What goes on for more reads goes on for fewer. -/
theorem Going.mono {m : Nat} (h : Going f n a s) (hm : m ≤ n) : Going f m a s := by
  induction m generalizing n s a with
  | zero => rfl
  | succ m ih =>
    obtain ⟨n, rfl⟩ : ∃ k, n = k + 1 := ⟨n - 1, by omega⟩
    obtain ⟨h1, h2⟩ := going_succ.mp h
    exact going_succ.mpr ⟨h1, ih h2 (by omega)⟩

/-! ### One lap -/

/-- To the status address and past it: the plain reads on the way are not zero, nor is the status read. -/
theorem going_to_status {d : Nat} (hd : (config.kbsrAddr - a).toNat = d) :
    Going f (d + 1 + n) a s ↔
      (∀ i < d, s.mem.cell (a + BitVec.ofNat 16 i) ≠ 0x0000) ∧ (s.memRead config.kbsrAddr).1 ≠ 0x0000 ∧
        Going f n (config.kbsrAddr + 1) s.poll := by
  induction d generalizing a with
  | zero =>
    obtain rfl : a = config.kbsrAddr := by bv_omega
    rw [show 0 + 1 + n = n + 1 by omega, going_succ, memRead_status]
    simp
  | succ d ih =>
    have ha : a ≠ config.kbsrAddr := by
      rintro rfl
      simp at hd
    have h0 : config.kbsrAddr - a ≠ 0 := fun e => ha (by bv_omega)
    rw [show d + 1 + 1 + n = d + 1 + n + 1 by omega, going_succ, s.memRead_plain ha, ih (by bv_omega)]
    have hs : ∀ i, a + 1 + BitVec.ofNat 16 i = a + BitVec.ofNat 16 (i + 1) := fun i => by
      rw [BitVec.add_assoc, show (1 : Word) + BitVec.ofNat 16 i = BitVec.ofNat 16 (i + 1) by bv_omega]
    constructor
    · rintro ⟨h1, h2, h3⟩
      refine ⟨fun i hi => ?_, h3⟩
      cases i with
      | zero => simpa using h1
      | succ i => exact hs i ▸ h2 i (by omega)
    · rintro ⟨h1, h2⟩
      exact ⟨by simpa using h1 0 (by omega), fun i hi => (hs i).symm ▸ h1 (i + 1) (by omega), h2⟩

/-- A whole lap, from the address after the status register: no other cell is zero, the poll is ready, and the scan goes on
from there in the state the poll leaves. -/
theorem going_lap (hm : s.mem.wf = true) :
    Going f (65536 + n) (config.kbsrAddr + 1) s ↔
      (∀ c, c ≠ config.kbsrAddr → s.mem.cell c ≠ 0x0000) ∧ s.arrive.inReady.1 = true ∧
        Going f n (config.kbsrAddr + 1) s.poll := by
  rw [show 65536 + n = 65535 + 1 + n by omega, going_to_status (by decide), s.memRead_status_fst hm]
  have hr : (if s.arrive.inReady.1 = true then (0x8000 : Word) else 0x0000) ≠ 0x0000 ↔ s.arrive.inReady.1 = true := by
    cases s.arrive.inReady.1 <;> simp
  rw [hr]
  refine and_congr_left fun _ => ⟨fun h c hc => ?_, fun h i hi => h _ fun e => ?_⟩
  · have h0 : config.kbsrAddr - c ≠ 0 := fun e => hc (by bv_omega)
    have hlt : (c - (config.kbsrAddr + 1)).toNat < 65535 := by bv_omega
    have := h _ hlt
    rwa [BitVec.ofNat_toNat, BitVec.setWidth_eq, show config.kbsrAddr + 1 + (c - (config.kbsrAddr + 1)) = c by bv_omega]
      at this
  · have hi' : BitVec.ofNat 16 i = 65535#16 := by bv_omega
    have := congrArg BitVec.toNat hi'
    rw [BitVec.toNat_ofNat, Nat.mod_eq_of_lt (by omega)] at this
    simp at this
    omega

/-! ### For ever -/

/-- An environment that never stops sending, over memory with no zero Word but perhaps the status register's: every read of
a scan is other than zero. -/
structure Endless (s : State) : Prop where
  wf : s.mem.wf = true
  polls : s.polls = []
  feed : ∃ b, s.feed = some b ∧ b ≠ 0x00
  inq : ∀ b ∈ s.inq, b ≠ 0x00
  cells : ∀ c, c ≠ config.kbsrAddr → s.mem.cell c ≠ 0x0000

theorem setWidth_ne_zero {b : Byte} (h : b ≠ 0x00) : b.setWidth 16 ≠ (0x0000 : Word) := fun e => h (by bv_omega)

/-- A poll leaves it so. -/
theorem Endless.poll (h : Endless s) : Endless s.poll := by
  obtain ⟨b, hf, hb⟩ := h.feed
  obtain ⟨c, rest, hq, hq', hc⟩ := s.poll_ready_spec h.wf (s.arrive_inReady_of_feed h.polls hf)
  have hall : ∀ x ∈ c :: rest, x ≠ 0x00 := by
    rw [← hq, s.arriving_of_nil h.polls, hf]
    intro x hx
    rcases List.mem_append.mp hx with hx | hx
    · exact h.inq x hx
    · rw [Option.toList_some, List.mem_singleton] at hx
      exact hx ▸ hb
  refine ⟨s.wf_poll h.wf, by simp [h.polls], ⟨b, by simp [hf], hb⟩, fun x hx => hall x ?_, fun x hx => ?_⟩
  · rw [hq'] at hx
    exact List.mem_cons_of_mem _ hx
  · rw [hc, if_neg hx]
    split_ifs
    · exact setWidth_ne_zero (hall c List.mem_cons_self)
    · exact h.cells x hx

/-- No scan ends there. -/
theorem Endless.going (h : Endless s) (n : Nat) (a : Word) : Going f n a s := by
  induction n generalizing s a with
  | zero => rfl
  | succ n ih =>
    rw [going_succ]
    by_cases ha : a = config.kbsrAddr
    · subst ha
      obtain ⟨b, hf, -⟩ := h.feed
      rw [s.memRead_status_fst h.wf, s.arrive_inReady_of_feed h.polls hf, memRead_status]
      exact ⟨by simp, ih h.poll _⟩
    · rw [s.memRead_plain ha]
      exact ⟨h.cells a ha, ih h _⟩

/-! ### The bound is enough -/

/-- What goes on past one lap goes on for ever if it does so after the lap's poll. -/
theorem going_of_lap (hm : s.mem.wf = true) (h : Going f (65536 + n) (config.kbsrAddr + 1) s)
    (hp : ∀ m, Going f m (config.kbsrAddr + 1) s.poll) (m : Nat) : Going f m (config.kbsrAddr + 1) s := by
  obtain ⟨h1, h2, -⟩ := (going_lap hm).mp h
  exact ((going_lap hm).mpr ⟨h1, h2, hp m⟩).mono (Nat.le_add_left m 65536)

/-- A poll under an endless feed, the listed answers used up: the head of the queue, the fed byte behind it, goes into the
data cell. -/
theorem poll_of_feed {b c : Byte} {rest : List Byte} (hm : s.mem.wf = true) (hp : s.polls = []) (hf : s.feed = some b)
    (hq : s.inq ++ [b] = c :: rest) : s.poll.inq = rest ∧ s.poll.mem.cell config.kbdrAddr = c.setWidth 16 := by
  obtain ⟨c', rest', h, h', hc⟩ := s.poll_ready_spec hm (s.arrive_inReady_of_feed hp hf)
  rw [s.arriving_of_nil hp, hf, Option.toList_some, hq] at h
  obtain ⟨rfl, rfl⟩ := List.cons.inj h
  exact ⟨h', by rw [hc, if_pos rfl]⟩

/-- Once the listed answers are used up: after one lap for each byte in front of the fed ones and two more, a scan that has
not ended never ends, since every lap is then like the one before. -/
theorem going_forever_of_feed {b : Byte} (l : List Byte) {k : Nat} (hm : s.mem.wf = true) (hp : s.polls = [])
    (hf : s.feed = some b) (hq : s.inq = l ++ List.replicate k b)
    (h : Going f (65536 * (l.length + 2)) (config.kbsrAddr + 1) s) (m : Nat) :
    Going f m (config.kbsrAddr + 1) s := by
  have hnext : s.inq ++ [b] = l ++ List.replicate (k + 1) b := by rw [hq, List.replicate_succ', List.append_assoc]
  induction l generalizing s k m with
  | nil =>
    have h2 : Going f (65536 + 65536) (config.kbsrAddr + 1) s := by simpa using h
    obtain ⟨hrest, hdata⟩ := poll_of_feed hm hp hf hnext
    obtain ⟨hcells, -⟩ := (going_lap (n := 0) (s.wf_poll hm)).mp ((going_lap hm).mp h2).2.2
    have hb : b ≠ 0x00 := by
      rintro rfl
      exact hcells config.kbdrAddr kbdrAddr_ne_kbsrAddr (by rw [hdata]; rfl)
    exact going_of_lap hm h2 (fun m => Endless.going ⟨s.wf_poll hm, by simp [hp], ⟨b, by simp [hf], hb⟩,
      fun x hx => List.eq_of_mem_replicate (hrest ▸ hx) ▸ hb, hcells⟩ m _) m
  | cons d l ih =>
    have h2 : Going f (65536 + 65536 * (l.length + 2)) (config.kbsrAddr + 1) s := by
      rw [List.length_cons] at h
      exact h.mono (by omega)
    obtain ⟨hrest, -⟩ := poll_of_feed hm hp hf hnext
    exact going_of_lap hm h2 (fun m => ih (s.wf_poll hm) (by simp [hp]) (by simp [hf]) (k := k + 1) hrest
      ((going_lap hm).mp h2).2.2 m (by
        rw [hrest, List.replicate_succ' (n := k + 1), ← List.append_assoc]
        rfl)) m

/-- What the next poll brings, and takes, is accounted for in what is to come. -/
theorem coming_poll_of_polls {p : PollAnswer} {rest : List PollAnswer} (hp : s.polls = p :: rest) :
    s.poll.coming ≤ s.coming := by
  obtain ⟨taken, ht⟩ := s.poll_inq
  have hl := congrArg List.length ht
  rw [s.arriving_of_polls hp, List.length_append, List.length_append] at hl
  simp only [coming, poll_polls, hp, List.tail_cons, List.map_cons, List.sum_cons]
  omega

/-- After one lap for each listed answer and each byte to come, and two more, a scan that has not ended never ends. -/
theorem going_forever {b : Byte} (hm : s.mem.wf = true) (hf : s.feed = some b)
    (h : Going f (65536 * (s.polls.length + s.coming + 2)) (config.kbsrAddr + 1) s) (m : Nat) :
    Going f m (config.kbsrAddr + 1) s := by
  generalize hl : s.polls = l at h
  induction l generalizing s m with
  | nil =>
    refine going_forever_of_feed (k := 0) s.inq hm hl hf (by simp) (h.mono ?_) m
    simp [coming, hl]
  | cons p rest ih =>
    have hc := coming_poll_of_polls hl
    have h2 : Going f (65536 + 65536 * (rest.length + s.coming + 2)) (config.kbsrAddr + 1) s := by
      rw [List.length_cons] at h
      exact h.mono (by omega)
    exact going_of_lap hm h2 (fun m' => ih (s.wf_poll hm) (by simp [hf]) (m := m') (by simp [hl])
      (((going_lap hm).mp h2).2.2.mono (by omega))) m

/-- The reads the machine allows a scan end every scan that has an end (log 11). -/
theorem writeString_forever (hm : s.mem.wf = true) (h : s.writeString f s.scanFuel a = none) (n : Nat) :
    s.writeString f n a = none := by
  have hlt := (config.kbsrAddr - a).isLt
  cases hf : s.feed with
  | none =>
    obtain ⟨t, ht⟩ := s.writeString_completes f (n := s.scanFuel) (a := a) hm hf (by unfold scanFuel; omega)
    simp [h] at ht
  | some b =>
    have hc : s.poll.polls.length + s.poll.coming ≤ s.polls.length + s.coming := by
      cases hp : s.polls with
      | cons p rest =>
        have := coming_poll_of_polls hp
        simp [hp]
        omega
      | nil =>
        obtain ⟨c, rest, hq, hq', -⟩ := s.poll_ready_spec hm (s.arrive_inReady_of_feed hp hf)
        have hl := congrArg List.length hq
        rw [s.arriving_of_nil hp, hf, ← hq'] at hl
        simp [coming, hp] at hl ⊢
        omega
    obtain ⟨g1, g2, g3⟩ := (going_to_status (f := f) (s := s) (a := a) (d := (config.kbsrAddr - a).toNat)
      (n := 65536 * (s.poll.polls.length + s.poll.coming + 2)) rfl).mp (Going.mono (n := s.scanFuel) h (by
        unfold scanFuel
        omega))
    exact ((going_to_status rfl).mpr ⟨g1, g2, going_forever (s.wf_poll hm) (by simpa using hf) g3 n⟩).mono
      (Nat.le_add_left n _)

/-- A scan that ends does so within the machine's bound. -/
theorem writeString_within_bound {t : State} (hm : s.mem.wf = true) (h : s.writeString f n a = some t) :
    s.writeString f s.scanFuel a = some t := by
  have hmore : ∀ {u : State} {n m : Nat} {s : State} {a : Word}, s.writeString f n a = some u → n ≤ m →
      s.writeString f m a = some u := by
    intro u n
    induction n with
    | zero => intro m s a h; simp [writeString] at h
    | succ n ih =>
      intro m s a h hle
      obtain ⟨m, rfl⟩ : ∃ k, m = k + 1 := ⟨m - 1, by omega⟩
      by_cases hw : (s.memRead a).1 = 0x0000
      · rw [s.writeString_stop f hw] at h ⊢
        exact h
      · rw [s.writeString_next f hw] at h ⊢
        exact ih h (by omega)
  rcases Nat.le_total n s.scanFuel with hle | hle
  · exact hmore h hle
  · cases hs : s.writeString f s.scanFuel a with
    | none => rw [writeString_forever hm hs n] at h; cases h
    | some u => rw [← hmore hs hle, h]

end Sys2Proof.Machine.State
end

