-- ==== Sys2Proof/Laws/Operands.lean ====
section
/-! SUPPORT. What the operand forms and the flag computation are as integers. -/

namespace Sys2Proof.Machine

/-- Sign extension keeps the signed value (00_scope.md R8). -/
theorem toInt_sext {w : Nat} (f : BitVec w) (hw : w ≤ 16) : (sext f).toInt = f.toInt :=
  BitVec.toInt_signExtend_of_le hw

/-- An address plus a sign-extended offset is the exact sum, wrapped modulo 2^16 (20_memory.md R51). -/
theorem add_sext {w : Nat} (a : Word) (f : BitVec w) (hw : w ≤ 16) :
    a + sext f = BitVec.ofInt 16 (a.toNat + f.toInt) := by
  apply BitVec.eq_of_toInt_eq
  rw [BitVec.toInt_add, BitVec.toInt_ofInt, toInt_sext f hw, BitVec.toInt_eq_toNat_bmod]
  simp

/-- The flag Word by the sign of the value (10_state.md R25). -/
theorem flagOf_of_toInt_eq_zero {v : Word} (h : v.toInt = 0) : flagOf v = config.flZro :=
  flagOf_of_zero (BitVec.eq_of_toInt_eq (by simpa using h))

theorem flagOf_of_toInt_neg {v : Word} (h : v.toInt < 0) : flagOf v = config.flNeg := by
  apply flagOf_of_neg
  rw [← BitVec.msb_eq_getLsbD_last, BitVec.msb_eq_toInt]
  simpa using h

theorem flagOf_of_toInt_pos {v : Word} (h : 0 < v.toInt) : flagOf v = config.flPos := by
  apply flagOf_of_pos
  · rintro rfl
    simp at h
  · rw [← BitVec.msb_eq_getLsbD_last, BitVec.msb_eq_toInt]
    simpa using h.le

/-- A zero-extended byte keeps its value. -/
theorem toNat_zext8 (b : Byte) : (zext8 b).toNat = b.toNat := by
  rw [zext8, BitVec.toNat_setWidth]
  exact Nat.mod_eq_of_lt (by have := b.isLt; omega)

theorem lowByte_eq (w : Word) : lowByte w = BitVec.ofNat 8 (w.toNat % 256) := by
  apply BitVec.eq_of_toNat_eq
  rw [lowByte, BitVec.extractLsb'_toNat]
  simp

theorem highByte_eq (w : Word) : highByte w = BitVec.ofNat 8 (w.toNat / 256) := by
  apply BitVec.eq_of_toNat_eq
  rw [highByte, BitVec.extractLsb'_toNat, Nat.shiftRight_eq_div_pow]
  simp

/-! ### The common ends of instructions -/

/-- LD, LDI and LDR end with the read's Word in dr and the flags, over the state the read leaves. -/
theorem State.loadInto_eq (s : State) (dr : RegIdx) (ea : Word) :
    s.loadInto dr ea = (s.memRead ea).2.setRegCC dr (s.memRead ea).1 := rfl

theorem execLdi_eq (dr : RegIdx) (off : BitVec 9) (s : State) :
    execLdi dr off s = .next ((s.memRead (s.pcRel9 off)).2.loadInto dr (s.memRead (s.pcRel9 off)).1) := rfl

theorem execSti_eq (sr : RegIdx) (off : BitVec 9) (s : State) :
    execSti sr off s = .next ((s.memRead (s.pcRel9 off)).2.memWrite (s.memRead (s.pcRel9 off)).1 (s.reg sr)) := by
  rw [← s.memRead_reg (s.pcRel9 off) sr]
  rfl

/-- GETCHAR with a byte pending. -/
theorem execTrapGetchar_of_cons {s : State} {b : Byte} {rest : List Byte} (h : s.inq = b :: rest) :
    execTrapGetchar s = .next (({ s.link with inq := rest } : State).deliver b) := by
  simp [execTrapGetchar, State.inByte, h]

/-- GETCHAR with nothing pending waits (10_state.md R31). -/
theorem execTrapGetchar_of_nil {s : State} (h : s.inq = []) : execTrapGetchar s = .fault (.blockedOnInput s.out) := by
  simp [execTrapGetchar, State.inByte, h]

/-- IN with a byte pending. -/
theorem execTrapIn_of_cons {s : State} {b : Byte} {rest : List Byte} (h : s.inq = b :: rest) :
    execTrapIn s =
      .next (((({ s.link.outBytes config.inPrompt with inq := rest } : State).outByte b)).deliver b) := by
  simp [execTrapIn, State.inByte, h]

/-- IN with nothing pending waits, its prompt already shown (D9). -/
theorem execTrapIn_of_nil {s : State} (h : s.inq = []) :
    execTrapIn s = .fault (.blockedOnInput (s.out ++ config.inPrompt)) := by
  simp [execTrapIn, State.inByte, h]

end Sys2Proof.Machine
end

