-- ==== Sys2Proof/Laws/Step.lean ====
section
/-! SUPPORT. What a step can be, said once: its inversion, its two run-state dead ends, and the fetch. -/

namespace Sys2Proof.Machine

/-- The fetch reads through MemRead and increments pc. -/
theorem fetch_fst (s : State) : s.fetch.1 = (s.memRead s.pc).1 := rfl

theorem fetch_snd (s : State) : s.fetch.2 = (s.memRead s.pc).2.setPc (s.pc + 1) := by
  show (s.memRead s.pc).2.setPc ((s.memRead s.pc).2.pc + 1) = _
  rw [s.memRead_pc]

/-- Away from the status register the fetch is a plain read. -/
theorem fetch_plain {s : State} (h : s.pc ≠ config.kbsrAddr) : s.fetch = (s.mem.cell s.pc, s.setPc (s.pc + 1)) := by
  rw [State.fetch, s.memRead_plain h]

theorem step_of_running {s : State} (h : s.run = .running) : step s = exec (decode s.fetch.1) s.fetch.2 := by
  simp [step, h]

theorem step_of_halted {s : State} (h : s.run = .halted) : step s = .fault .halted := by simp [step, h]

theorem step_of_fatal {s : State} {c : FatalCause} (h : s.run = .fatal c) : step s = .fault (.fatal c) := by
  simp [step, h]

/-- A step that answers a next state ran the decoded instruction of a RUNNING core. -/
theorem step_next {s t : State} (h : step s = .next t) :
    s.run = .running ∧ exec (decode s.fetch.1) s.fetch.2 = .next t := by
  unfold step at h
  split at h
  · next hr => exact ⟨hr, h⟩
  · cases h
  · cases h

/-- The fetch keeps memory's canonical form and every register, flag and output. -/
theorem wf_fetch {s : State} (hm : s.mem.wf = true) : s.fetch.2.mem.wf = true := by
  rw [fetch_snd]
  exact s.wf_memRead s.pc hm

@[simp] theorem fetch_reg (s : State) (j : RegIdx) : s.fetch.2.reg j = s.reg j := by simp [fetch_snd]
@[simp] theorem fetch_cond (s : State) : s.fetch.2.cond = s.cond := by simp [fetch_snd]
@[simp] theorem fetch_run (s : State) : s.fetch.2.run = s.run := by simp [fetch_snd]
@[simp] theorem fetch_out (s : State) : s.fetch.2.out = s.out := by simp [fetch_snd]
@[simp] theorem fetch_pc (s : State) : s.fetch.2.pc = s.pc + 1 := by simp [fetch_snd]

/-- Every Word decodes to a well-formed instruction (30_encoding.md R85). -/
theorem wf_decode (w : Word) : (decode w).wf = true := by
  unfold decode
  split <;> try split
  all_goals first | rfl | exact wf_decodeTrap _

end Sys2Proof.Machine
end

