-- ==== Sys2Proof/Laws/Exec.lean ====
section
/-! SUPPORT. The inversions of the instructions that can stop or scan: when one answers a next state, which state that is or
what it keeps. Every other meaning is `.next` of an expression, and unfolds to it. -/

namespace Sys2Proof.Machine

/-- GETCHAR answers a next state only by taking the oldest byte. -/
theorem execTrapGetchar_next {s t : State} (h : execTrapGetchar s = .next t) :
    ∃ b rest, s.inq = b :: rest ∧ t = ({ s.link with inq := rest } : State).deliver b := by
  cases hq : s.inq with
  | nil => rw [execTrapGetchar_of_nil hq] at h; cases h
  | cons b rest =>
    rw [execTrapGetchar_of_cons hq] at h
    injection h with h
    exact ⟨b, rest, rfl, h.symm⟩

/-- IN answers a next state only by taking the oldest byte, after its prompt. -/
theorem execTrapIn_next {s t : State} (h : execTrapIn s = .next t) :
    ∃ b rest, s.inq = b :: rest ∧
      t = ((({ s.link.outBytes config.inPrompt with inq := rest } : State).outByte b)).deliver b := by
  cases hq : s.inq with
  | nil => rw [execTrapIn_of_nil hq] at h; cases h
  | cons b rest =>
    rw [execTrapIn_of_cons hq] at h
    injection h with h
    exact ⟨b, rest, rfl, h.symm⟩

/-- PUTS and PUTSP answer a next state only by a scan that ended. -/
theorem putString_next {f : Word → List Byte} {s t : State} (h : s.putString f = .next t) :
    s.writeString f s.scanFuel (s.reg trapReg) = some t := by
  unfold State.putString at h
  split at h
  · next hw =>
    injection h with h
    rw [hw, h]
  · cases h

/-- A scan writes no register, flag or pc and does not end the run. -/
theorem writeString_frame {f : Word → List Byte} {n : Nat} {a : Word} {s t : State}
    (h : s.writeString f n a = some t) :
    (∀ j, t.reg j = s.reg j) ∧ t.cond = s.cond ∧ t.pc = s.pc ∧ t.run = s.run := by
  refine s.writeString_keeps f
    (P := fun u => (∀ j, u.reg j = s.reg j) ∧ u.cond = s.cond ∧ u.pc = s.pc ∧ u.run = s.run) ?_ ?_ (by simp) h
  · intro u b hu
    simpa using hu
  · intro u b hu
    simpa using hu

/-- A scan keeps memory canonical and changes no cell but the two console cells. -/
theorem writeString_mem {f : Word → List Byte} {n : Nat} {a : Word} {s t : State} (hm : s.mem.wf = true)
    (h : s.writeString f n a = some t) :
    t.mem.wf = true ∧ ∀ b, b ≠ config.kbsrAddr → b ≠ config.kbdrAddr → t.mem.cell b = s.mem.cell b := by
  refine s.writeString_keeps f
    (P := fun u => u.mem.wf = true ∧
      ∀ b, b ≠ config.kbsrAddr → b ≠ config.kbdrAddr → u.mem.cell b = s.mem.cell b) ?_ ?_ ⟨hm, fun _ _ _ => rfl⟩ h
  · intro u b hu
    exact ⟨u.wf_memRead b hu.1, fun c c1 c2 => (u.memRead_cell_other hu.1 c1 c2).trans (hu.2 c c1 c2)⟩
  · intro u b hu
    exact hu

/-- A scan only appends to the output, and input goes on as the environment has settled it. -/
theorem writeString_console {f : Word → List Byte} {n : Nat} {a : Word} {s t : State}
    (h : s.writeString f n a = some t) : (∃ bytes, t.out = s.out ++ bytes) ∧ State.InputFollows s t := by
  refine s.writeString_keeps f
    (P := fun u => (∃ bytes, u.out = s.out ++ bytes) ∧ State.InputFollows s u) ?_ ?_ ⟨⟨[], by simp⟩, .refl s⟩ h
  · rintro u b ⟨⟨o, ho⟩, hu⟩
    exact ⟨⟨o, by simp [ho]⟩, hu.memRead b⟩
  · rintro u bytes ⟨⟨o, ho⟩, hu⟩
    exact ⟨⟨o ++ bytes, by simp [ho]⟩, hu.take (taken := []) rfl rfl rfl⟩

/-- A scan has the next state its reads end in, however many they are. -/
theorem putString_next_iff {f : Word → List Byte} {s t : State} (hm : s.mem.wf = true) :
    s.putString f = .next t ↔ ∃ n, s.writeString f n (s.reg trapReg) = some t :=
  ⟨fun h => ⟨_, putString_next h⟩, fun ⟨_, h⟩ => by rw [State.putString, State.writeString_within_bound hm h]⟩

/-- A scan hangs exactly when no number of reads ends it. -/
theorem putString_hangs_iff {f : Word → List Byte} {s : State} (hm : s.mem.wf = true) :
    s.putString f = .fault .stringNeverEnds ↔ ∀ n, s.writeString f n (s.reg trapReg) = none := by
  rw [State.putString]
  constructor
  · intro h
    cases hw : s.writeString f s.scanFuel (s.reg trapReg) with
    | none => exact State.writeString_forever hm hw
    | some t => rw [hw] at h; cases h
  · intro h
    rw [h]

end Sys2Proof.Machine
end

