-- ==== Sys2Proof/Laws/Loader.lean ====
section
/-! SUPPORT. What the loader stores: the payload Words of an image, and what a run of stores leaves in each cell. -/

namespace Sys2Proof.Machine

/-- The i-th payload Word is the pair of bytes at 2i and 2i + 1 (70_reset_and_hazards.md R204). -/
theorem getElem?_payloadWords (b : List Byte) (i : Nat) :
    (payloadWords b)[i]? = match b[2 * i]?, b[2 * i + 1]? with
      | some h, some l => some (wordOfBytes h l)
      | _, _ => none := by
  induction b using payloadWords.induct generalizing i with
  | case1 h l rest ih =>
    cases i with
    | zero => simp [payloadWords]
    | succ i =>
      rw [payloadWords, List.getElem?_cons_succ, ih]
      simp [Nat.mul_add, show 2 * i + 2 = 2 * i + 1 + 1 by omega]
  | case2 b hb =>
    cases b with
    | nil => simp [payloadWords]
    | cons h b =>
      cases b with
      | nil =>
        simp only [payloadWords, List.getElem?_nil]
        cases i <;> simp [Nat.mul_add]
      | cons l rest => exact absurd rfl (hb h l rest)

/-- The Word of two bytes as a number. -/
theorem wordOfBytes_eq (h l : Byte) : wordOfBytes h l = BitVec.ofNat 16 (h.toNat * 256 + l.toNat) := by
  apply BitVec.eq_of_toNat_eq
  have := h.isLt
  have := l.isLt
  rw [wordOfBytes, toNat_join, BitVec.toNat_ofNat, Nat.mod_eq_of_lt (by omega)]
  rfl

theorem toNat_wordOfBytes (h l : Byte) : (wordOfBytes h l).toNat = h.toNat * 256 + l.toNat := toNat_join h l

/-- A run of stores keeps the canonical form. -/
theorem wf_storeWords {m : Memory} (hm : m.wf = true) (o : Nat) (ws : List Word) : (storeWords o ws m).wf = true := by
  induction ws generalizing o m with
  | nil => exact hm
  | cons w ws ih =>
    rw [storeWords]
    split
    · exact ih (Memory.wf_store hm _ _) _
    · exact hm

/-- A run of stores from `o`: each cell at or above `o` that the run reaches holds its Word, every other is as before; no cell
below `o` is reached by wrapping (R205). -/
theorem cell_storeWords {m : Memory} (hm : m.wf = true) (o : Nat) (ws : List Word) (a : Word) :
    (storeWords o ws m).cell a = if o ≤ a.toNat then (ws[a.toNat - o]?).getD (m.cell a) else m.cell a := by
  induction ws generalizing o m with
  | nil => simp [storeWords]
  | cons w ws ih =>
    have ha := a.isLt
    rw [storeWords]
    split
    · next ho =>
      have hon : (BitVec.ofNat 16 o).toNat = o := by rw [BitVec.toNat_ofNat]; exact Nat.mod_eq_of_lt ho
      have hcell : (m.store (BitVec.ofNat 16 o) w).cell a = if a.toNat = o then w else m.cell a := by
        rw [Memory.cell_store hm]
        congr 1
        rw [← BitVec.toNat_inj, hon]
      rw [ih (Memory.wf_store hm _ _), hcell]
      rcases Nat.lt_trichotomy a.toNat o with h | h | h
      · rw [if_neg (by omega), if_neg (by omega), if_neg (by omega)]
      · rw [if_neg (by omega), if_pos h, if_pos (by omega), show a.toNat - o = 0 by omega]
        rfl
      · rw [if_pos (by omega), if_neg (by omega), if_pos (by omega),
          show a.toNat - o = (a.toNat - (o + 1)) + 1 by omega, List.getElem?_cons_succ]
    · rw [if_neg (by omega)]

end Sys2Proof.Machine
end

