-- ==== Sys2Proof/Laws/PerInstr.lean ====
section
/-! SUPPORT. Statements about every instruction as syntax, one lemma per constructor (LAWS.json). RowMatch: the Word the
encoder writes is of the opcode-table row of its instruction. -/

namespace Sys2Proof.Laws.RowMatch

/-- The encoding of a well-formed instruction has the fixed bits of its row of spec/opcode_table.json. -/
def Statement (i : Instr) : Prop := i.wf = true → i.row.covers (encode i) = true

/-- A Word is a row's when it agrees with the pattern bit by bit under the mask. -/
theorem covers_of_bits {r : TableRow} {w : Word}
    (h : ∀ i < 16, (decide (w.toNat / 2 ^ i % 2 = 1) && r.mask.getLsbD i) = r.pattern.getLsbD i) : r.covers w = true := by
  simp only [TableRow.covers, beq_iff_eq]
  apply BitVec.eq_of_getLsbD_eq
  intro i hi
  rw [BitVec.getLsbD_and, getLsbD_eq_div]
  exact h i hi

theorem addReg (dr sr1 sr2 : RegIdx) : Statement (.addReg dr sr1 sr2) := fun _ => covers_of_bits fun i hi => by
  rw [encode, toNat_encRRR]
  interval_cases i <;> simp [Instr.row, config, opcodeNumber] <;> omega

theorem addImm (dr sr1 : RegIdx) (imm5 : BitVec 5) : Statement (.addImm dr sr1 imm5) := fun _ => covers_of_bits fun i hi => by
  rw [encode, toNat_encRRI]
  interval_cases i <;> simp [Instr.row, config, opcodeNumber] <;> omega

theorem andReg (dr sr1 sr2 : RegIdx) : Statement (.andReg dr sr1 sr2) := fun _ => covers_of_bits fun i hi => by
  rw [encode, toNat_encRRR]
  interval_cases i <;> simp [Instr.row, config, opcodeNumber] <;> omega

theorem andImm (dr sr1 : RegIdx) (imm5 : BitVec 5) : Statement (.andImm dr sr1 imm5) := fun _ => covers_of_bits fun i hi => by
  rw [encode, toNat_encRRI]
  interval_cases i <;> simp [Instr.row, config, opcodeNumber] <;> omega

theorem not (dr sr : RegIdx) : Statement (.not dr sr) := fun _ => covers_of_bits fun i hi => by
  rw [encode, toNat_encRR]
  interval_cases i <;> simp [Instr.row, config, opcodeNumber] <;> omega

theorem br (cond : BitVec 3) (pcoffset9 : BitVec 9) : Statement (.br cond pcoffset9) := fun _ => covers_of_bits fun i hi => by
  rw [encode, toNat_encBR]
  interval_cases i <;> simp [Instr.row, config, opcodeNumber] <;> omega

theorem jmp (baseR : RegIdx) : Statement (.jmp baseR) := fun _ => covers_of_bits fun i hi => by
  rw [encode, toNat_encB]
  interval_cases i <;> simp [Instr.row, config, opcodeNumber] <;> omega

theorem jsr (pcoffset11 : BitVec 11) : Statement (.jsr pcoffset11) := fun _ => covers_of_bits fun i hi => by
  rw [encode, toNat_encJ11]
  interval_cases i <;> simp [Instr.row, config, opcodeNumber] <;> omega

theorem jsrr (baseR : RegIdx) : Statement (.jsrr baseR) := fun _ => covers_of_bits fun i hi => by
  rw [encode, toNat_encJB]
  interval_cases i <;> simp [Instr.row, config, opcodeNumber] <;> omega

theorem ld (dr : RegIdx) (pcoffset9 : BitVec 9) : Statement (.ld dr pcoffset9) := fun _ => covers_of_bits fun i hi => by
  rw [encode, toNat_encRP9]
  interval_cases i <;> simp [Instr.row, config, opcodeNumber] <;> omega

theorem ldi (dr : RegIdx) (pcoffset9 : BitVec 9) : Statement (.ldi dr pcoffset9) := fun _ => covers_of_bits fun i hi => by
  rw [encode, toNat_encRP9]
  interval_cases i <;> simp [Instr.row, config, opcodeNumber] <;> omega

theorem ldr (dr baseR : RegIdx) (offset6 : BitVec 6) : Statement (.ldr dr baseR offset6) := fun _ => covers_of_bits fun i hi => by
  rw [encode, toNat_encRB6]
  interval_cases i <;> simp [Instr.row, config, opcodeNumber] <;> omega

theorem lea (dr : RegIdx) (pcoffset9 : BitVec 9) : Statement (.lea dr pcoffset9) := fun _ => covers_of_bits fun i hi => by
  rw [encode, toNat_encRP9]
  interval_cases i <;> simp [Instr.row, config, opcodeNumber] <;> omega

theorem st (sr : RegIdx) (pcoffset9 : BitVec 9) : Statement (.st sr pcoffset9) := fun _ => covers_of_bits fun i hi => by
  rw [encode, toNat_encRP9]
  interval_cases i <;> simp [Instr.row, config, opcodeNumber] <;> omega

theorem sti (sr : RegIdx) (pcoffset9 : BitVec 9) : Statement (.sti sr pcoffset9) := fun _ => covers_of_bits fun i hi => by
  rw [encode, toNat_encRP9]
  interval_cases i <;> simp [Instr.row, config, opcodeNumber] <;> omega

theorem str (sr baseR : RegIdx) (offset6 : BitVec 6) : Statement (.str sr baseR offset6) := fun _ => covers_of_bits fun i hi => by
  rw [encode, toNat_encRB6]
  interval_cases i <;> simp [Instr.row, config, opcodeNumber] <;> omega

theorem trapGetchar : Statement .trapGetchar := fun _ => by decide

theorem trapOutputchar : Statement .trapOutputchar := fun _ => by decide

theorem trapPuts : Statement .trapPuts := fun _ => by decide

theorem trapIn : Statement .trapIn := fun _ => by decide

theorem trapPutsp : Statement .trapPutsp := fun _ => by decide

theorem trapHalt : Statement .trapHalt := fun _ => by decide

theorem trapBad00to1F (trapvect8 : BitVec 8) : Statement (.trapBad00to1F trapvect8) := by
  revert trapvect8
  unfold Statement
  decide

theorem trapBad26to27 (trapvect8 : BitVec 8) : Statement (.trapBad26to27 trapvect8) := by
  revert trapvect8
  unfold Statement
  decide

theorem trapBad28to2F (trapvect8 : BitVec 8) : Statement (.trapBad28to2F trapvect8) := by
  revert trapvect8
  unfold Statement
  decide

theorem trapBad30to3F (trapvect8 : BitVec 8) : Statement (.trapBad30to3F trapvect8) := by
  revert trapvect8
  unfold Statement
  decide

theorem trapBad40to7F (trapvect8 : BitVec 8) : Statement (.trapBad40to7F trapvect8) := by
  revert trapvect8
  unfold Statement
  decide

theorem trapBad80toFF (trapvect8 : BitVec 8) : Statement (.trapBad80toFF trapvect8) := by
  revert trapvect8
  unfold Statement
  decide

theorem rti : Statement .rti := fun _ => by decide

theorem res : Statement .res := fun _ => by decide

end Sys2Proof.Laws.RowMatch
end

