-- ==== Sys2Proof/Tests/Slice0.lean ====
section
/-! SUPPORT. The model's own tests. Expected values are the spec's: the examples of the instruction rules and the vectors of
95_test_vectors.md (their ids stand beside each test), never the model's own answers. Then a witness for every statement with
hypotheses. -/

namespace Sys2Proof.Tests

open Sys2Proof.Machine Sys2Proof.Claims

/-! ### Helpers -/

/-- Reset state with `pc` at an address, some registers and some cells set. -/
def start (pc : Word) (regs : List (RegIdx × Word)) (cells : List (Word × Word)) : State :=
  let s := cells.foldl (fun s c => s.memWrite c.1 c.2) (State.reset.setPc pc)
  regs.foldl (fun s r => s.setReg r.1 r.2) s

/-- A poll the environment answers ready, after these bytes have arrived. -/
def ready (arrived : List Byte) : PollAnswer := { arrived := arrived, ready := true }

/-- The next state, if there is one, passes the check. -/
def nextIs (o : Result) (check : State → Bool) : Bool :=
  match o with
  | .next t => check t
  | _ => false

/-- The step stops with this fault. -/
def faultIs (o : Result) (f : Fault) : Bool :=
  match o with
  | .fault g => g == f
  | _ => false

/-- The load succeeds and the memory passes the check. -/
def loadedIs (o : Except ImageError State) (check : State → Bool) : Bool :=
  match o with
  | .ok t => check t
  | .error _ => false

/-- The load fails with this error. -/
def loadErrorIs (o : Except ImageError State) (e : ImageError) : Bool :=
  match o with
  | .ok _ => false
  | .error g => g == e

/-! ### Well-formedness: an ill-formed term for each check -/

theorem test_wf_00to1F : (Instr.trapBad00to1F 0x20).wf = false := by decide
theorem test_wf_26to27 : (Instr.trapBad26to27 0x25).wf = false ∧ (Instr.trapBad26to27 0x28).wf = false := by decide
theorem test_wf_28to2F : (Instr.trapBad28to2F 0x27).wf = false ∧ (Instr.trapBad28to2F 0x30).wf = false := by decide
theorem test_wf_30to3F : (Instr.trapBad30to3F 0x2F).wf = false ∧ (Instr.trapBad30to3F 0x40).wf = false := by decide
theorem test_wf_40to7F : (Instr.trapBad40to7F 0x3F).wf = false ∧ (Instr.trapBad40to7F 0x80).wf = false := by decide
theorem test_wf_80toFF : (Instr.trapBad80toFF 0x7F).wf = false := by decide

/-! ### Decoding: every constructor, by a Word of the spec's encoding (bits as R81 lays them out) -/

theorem test_decode_addReg : decode 0b0001000001011010 = .addReg 0 1 2 := by decide           -- A5, ignored bits set
theorem test_decode_addImm : decode 0b0001001010111101 = .addImm 1 2 0b11101 := by decide     -- S4
theorem test_decode_andReg : decode 0b0101101011000100 = .andReg 5 3 4 := by decide           -- S5
theorem test_decode_andImm : decode 0b0101001010110000 = .andImm 1 2 0b10000 := by decide     -- A13
theorem test_decode_not : decode 0b1001001010000000 = .not 1 2 := by decide                   -- A18, ignored bits clear
theorem test_decode_br : decode 0b0000100100000000 = .br 0b100 0b100000000 := by decide       -- CT3
theorem test_decode_jmp : decode 0b1100111010111111 = .jmp 2 := by decide                     -- CT11, ignored bits set
theorem test_decode_jsr : decode 0b0100110000000000 = .jsr 0b10000000000 := by decide         -- CT13
theorem test_decode_jsrr : decode 0b0100000111000000 = .jsrr 7 := by decide                   -- CT16
theorem test_decode_ld : decode 0b0010000111111111 = .ld 0 0b111111111 := by decide           -- M2
theorem test_decode_ldi : decode 0b1010001000000010 = .ldi 1 2 := by decide                   -- M5
theorem test_decode_ldr : decode 0b0110010011111111 = .ldr 2 3 0b111111 := by decide          -- M9
theorem test_decode_lea : decode 0b1110100011111111 = .lea 4 0b011111111 := by decide         -- M15
theorem test_decode_st : decode 0b0011000000000011 = .st 0 3 := by decide                     -- M17
theorem test_decode_sti : decode 0b1011001000000001 = .sti 1 1 := by decide                   -- M20
theorem test_decode_str : decode 0b0111010011000100 = .str 2 3 4 := by decide                 -- M22
theorem test_decode_traps :
    decode 0b1111000000100000 = .trapGetchar ∧ decode 0b1111000000100001 = .trapOutputchar ∧
      decode 0b1111000000100010 = .trapPuts ∧ decode 0b1111000000100011 = .trapIn ∧
      decode 0b1111000000100100 = .trapPutsp ∧ decode 0b1111111100100101 = .trapHalt := by decide   -- T1 to T14
theorem test_decode_bad_vectors :
    decode 0b1111000000011111 = .trapBad00to1F 0x1F ∧ decode 0b1111000000100110 = .trapBad26to27 0x26 ∧
      decode 0b1111000000101000 = .trapBad28to2F 0x28 ∧ decode 0b1111000000110000 = .trapBad30to3F 0x30 ∧
      decode 0b1111000001111111 = .trapBad40to7F 0x7F ∧ decode 0b1111000011111111 = .trapBad80toFF 0xFF := by decide
theorem test_decode_reserved : decode 0b1000101010111100 = .rti ∧ decode 0b1101111111111111 = .res := by decide  -- F2, F4
theorem test_decode_short_stream : (match decodeBytes [0x12] with | .error .truncated => true | _ => false) = true := by
  decide
theorem test_decode_table_word : decodeTableWord 16 0xC1C0 = some (.jmp 7) ∧ decodeTableWord 17 0 = none := by decide
theorem test_encode_not : encode (.not 1 2) = 0x92BF ∧ encode (.jmp 7) = 0xC1C0 := by decide

/-! ### Arithmetic and logic (V311) -/

theorem test_add_wraps_to_negative : nextIs (step (start 0x3000 [(1, 0x7FFF), (2, 0x0001)] [(0x3000, 0x1042)]))
    (fun t => t.reg 0 == 0x8000 && t.cond == 0x0004 && t.pc == 0x3001) = true := by decide          -- A1
theorem test_add_same_register : nextIs (step (start 0x3000 [(1, 0x4000)] [(0x3000, 0x1241)]))
    (fun t => t.reg 1 == 0x8000 && t.cond == 0x0004) = true := by decide                            -- A4
theorem test_add_imm_negative : nextIs (step (start 0x3000 [(2, 0x000A)] [(0x3000, 0x12BD)]))
    (fun t => t.reg 1 == 0x0007 && t.cond == 0x0001) = true := by decide                            -- A6
theorem test_add_imm_to_zero : nextIs (step (start 0x3000 [(2, 0x0010)] [(0x3000, 0x12B0)]))
    (fun t => t.reg 1 == 0x0000 && t.cond == 0x0002) = true := by decide                            -- A8
theorem test_and_reg : nextIs (step (start 0x3000 [(3, 0x000A), (4, 0x000C)] [(0x3000, 0x5AC4)]))
    (fun t => t.reg 5 == 0x0008 && t.cond == 0x0001) = true := by decide                            -- A10
theorem test_and_imm_extends : nextIs (step (start 0x3000 [(2, 0xABCD)] [(0x3000, 0x52B0)]))
    (fun t => t.reg 1 == 0xABC0 && t.cond == 0x0004) = true := by decide                            -- A13
theorem test_not : nextIs (step (start 0x3000 [(2, 0x8000)] [(0x3000, 0x92BF)]))
    (fun t => t.reg 1 == 0x7FFF && t.cond == 0x0001) = true := by decide                            -- A17

/-! ### Control transfer (V312) -/

theorem test_br_taken_back : nextIs (step ((start 0x3000 [] [(0x3000, 0x0900)]).setcc 0x8000))
    (fun t => t.pc == 0x2F01 && t.cond == 0x0004) = true := by decide                               -- CT3
theorem test_br_wraps : nextIs (step ((start 0xFFFF [] [(0xFFFF, 0x0201)]).setcc 0x0001))
    (fun t => t.pc == 0x0001) = true := by decide                                                   -- CT7
theorem test_jmp : nextIs (step (start 0x3000 [(7, 0x1234)] [(0x3000, 0xC1C0)]))
    (fun t => t.pc == 0x1234 && t.reg 7 == 0x1234) = true := by decide                              -- CT10
theorem test_jsr : nextIs (step ((start 0x3000 [] [(0x3000, 0x4C00)]).setcc 0x8000))
    (fun t => t.pc == 0x2C01 && t.reg 7 == 0x3001 && t.cond == 0x0004) = true := by decide          -- CT12, CT13
theorem test_jsrr : nextIs (step (start 0x3000 [(3, 0x5000)] [(0x3000, 0x40C0)]))
    (fun t => t.pc == 0x5000 && t.reg 7 == 0x3001) = true := by decide                              -- CT15
theorem test_jsrr_r7_falls_through : nextIs (step (start 0x3000 [(7, 0x5000)] [(0x3000, 0x41C0)]))
    (fun t => t.pc == 0x3001 && t.reg 7 == 0x3001) = true := by decide                              -- CT16

/-! ### Loads, stores, console registers (V313) -/

theorem test_ld_top_of_memory : nextIs (step (start 0xFFFF [] [(0xFFFF, 0x2001), (0x0001, 0x0042)]))
    (fun t => t.reg 0 == 0x0042 && t.pc == 0x0000 && t.cond == 0x0001) = true := by decide          -- M4
theorem test_ldi_status_ready :
    nextIs (step { start 0x3000 [] [(0x3000, 0xA202), (0x3003, 0xFE00)] with inq := [0x41], polls := [ready []] })
      (fun t => t.reg 1 == 0x8000 && t.mem.cell 0xFE00 == 0x8000 && t.mem.cell 0xFE02 == 0x0041 && t.inq == [] &&
        t.cond == 0x0004) = true := by decide                                                       -- M6
theorem test_ldi_status_not_ready :
    nextIs (step { start 0x3000 [] [(0x3000, 0xA202), (0x3003, 0xFE00), (0xFE00, 0x1234), (0xFE02, 0x0055)] with
        polls := [{ arrived := [], ready := false }] })
      (fun t => t.reg 1 == 0x0000 && t.mem.cell 0xFE00 == 0x0000 && t.mem.cell 0xFE02 == 0x0055 && t.cond == 0x0002) =
      true := by decide                                                                             -- M7
theorem test_ldr_through_itself : nextIs (step (start 0x3000 [(1, 0x4000)] [(0x3000, 0x6240), (0x4000, 0x8001)]))
    (fun t => t.reg 1 == 0x8001 && t.cond == 0x0004) = true := by decide                            -- M10
theorem test_ldr_wraps_below_zero : nextIs (step (start 0x3000 [(3, 0x0010)] [(0x3000, 0x64E0), (0xFFF0, 0x0009)]))
    (fun t => t.reg 2 == 0x0009) = true := by decide                                                -- M11
theorem test_lea_sets_flags : nextIs (step (start 0x7F01 [] [(0x7F01, 0xE8FF)]))
    (fun t => t.reg 4 == 0x8001 && t.cond == 0x0004 && t.pc == 0x7F02) = true := by decide          -- M15
theorem test_st_over_itself : nextIs (step (start 0x3000 [(0, 0x0001)] [(0x3000, 0x31FF)]))
    (fun t => t.mem.cell 0x3000 == 0x0001 && t.cond == 0x0002) = true := by decide                  -- M19
theorem test_sti_to_status_is_plain :
    nextIs (step { start 0x3000 [(1, 0x00FF)] [(0x3000, 0xB201), (0x3002, 0xFE00)] with inq := [0x41] })
      (fun t => t.mem.cell 0xFE00 == 0x00FF && t.mem.cell 0xFE02 == 0x0000 && t.inq == [0x41]) = true := by decide  -- M21
theorem test_str_wraps : nextIs (step (start 0x3000 [(3, 0xFFFF), (2, 0x0AAA)] [(0x3000, 0x74C1)]))
    (fun t => t.mem.cell 0x0000 == 0x0AAA && t.pc == 0x3001) = true := by decide                    -- M24
theorem test_fetch_status_ready_is_rti : nextIs (step { start 0xFE00 [] [(0xFE00, 0x1234)] with inq := [0x5A], polls := [ready []] })
    (fun t => t.run == .fatal (.fatalOpcode .rti) && t.mem.cell 0xFE02 == 0x005A && t.pc == 0xFE01) = true := by decide

/-! ### Traps and fatal opcodes (V314) -/

theorem test_getchar : nextIs (step { (start 0x3000 [] [(0x3000, 0xF020)]).setcc 0x8000 with inq := [0xFF, 0x62] })
    (fun t => t.reg 0 == 0x00FF && t.reg 7 == 0x3001 && t.cond == 0x0001 && t.inq == [0x62] && t.out == []) = true := by
  decide                                                                                            -- T1, T3
theorem test_getchar_waits : faultIs (step (start 0x3000 [] [(0x3000, 0xF020)])) (.blockedOnInput []) = true := by
  decide                                                                                            -- T4
theorem test_outputchar : nextIs (step (start 0x3000 [(0, 0x1241)] [(0x3000, 0xF021)]))
    (fun t => t.out == [0x41] && t.reg 7 == 0x3001 && t.reg 0 == 0x1241) = true := by decide        -- T5
theorem test_puts_wraps : nextIs (step (start 0x3000 [(0, 0xFFFF)] [(0x3000, 0xF022), (0xFFFF, 0x0041), (0x0000, 0x0042)]))
    (fun t => t.out == [0x41, 0x42] && t.reg 0 == 0xFFFF && t.reg 7 == 0x3001) = true := by decide  -- T9
theorem test_puts_across_status :
    nextIs (step { start 0x3000 [(0, 0xFDFF)] [(0x3000, 0xF022), (0xFDFF, 0x0041), (0xFE01, 0x0042)] with
        polls := [ready [0x00, 0x5A]] })
      (fun t => t.out == [0x41, 0x00, 0x42] && t.mem.cell 0xFE00 == 0x8000 && t.mem.cell 0xFE02 == 0x0000 &&
        t.inq == [0x5A] && t.polls == []) = true := by decide     -- R143's corner case, the input arriving inside the scan
theorem test_puts_drops_high_bytes : nextIs (step (start 0x3000 [(0, 0x3010)] [(0x3000, 0xF022), (0x3010, 0x4100), (0x3011, 0x0141)]))
    (fun t => t.out == [0x00, 0x41]) = true := by decide                                            -- T8
theorem test_in : nextIs (step { start 0x3000 [] [(0x3000, 0xF023)] with inq := [0x7A] })
    (fun t => t.reg 0 == 0x007A && t.inq == [] && t.out == [0x45, 0x6E, 0x74, 0x65, 0x72, 0x20, 0x61, 0x20, 0x63, 0x68,
      0x61, 0x72, 0x61, 0x63, 0x74, 0x65, 0x72, 0x3A, 0x20, 0x7A]) = true := by decide              -- T10
theorem test_putsp : nextIs (step (start 0x3000 [(0, 0x3010)] [(0x3000, 0xF024), (0x3010, 0x6548), (0x3011, 0x006C)]))
    (fun t => t.out == [0x48, 0x65, 0x6C] && t.reg 0 == 0x3010) = true := by decide                 -- T11
theorem test_putsp_low_zero : nextIs (step (start 0x3000 [(0, 0x3010)] [(0x3000, 0xF024), (0x3010, 0x4100)]))
    (fun t => t.out == [0x00, 0x41]) = true := by decide                                            -- T12
theorem test_halt : nextIs (step (start 0x3002 [] [(0x3002, 0xF025)]))
    (fun t => t.run == .halted && t.pc == 0x3003 && t.reg 7 == 0x3003 && t.out == [0x48, 0x41, 0x4C, 0x54, 0x0A] &&
      faultIs (step t) .halted) = true := by decide                                                 -- T13
theorem test_bad_vector : nextIs (step (start 0x3000 [] [(0x3000, 0xF026)]))
    (fun t => t.run == .fatal (.fatalTrapVector 0x26) && t.reg 7 == 0x3001 && t.pc == 0x3001 && t.out == [] &&
      faultIs (step t) (.fatal (.fatalTrapVector 0x26))) = true := by decide                        -- T17
theorem test_rti : nextIs (step (start 0x3000 [] [(0x3000, 0x8ABC)]))
    (fun t => t.run == .fatal (.fatalOpcode .rti) && t.pc == 0x3001 && t.reg 7 == 0x0000) = true := by decide   -- F2
theorem test_res : nextIs (step (start 0x3000 [] [(0x3000, 0xD000)]))
    (fun t => t.run == .fatal (.fatalOpcode .res) && t.pc == 0x3001) = true := by decide            -- F3

/-! ### The loader (V315) -/

theorem test_load_odd_byte : loadedIs (State.reset.resetWith (.bytes [0x30, 0x00, 0x12, 0x34, 0x56]) [])
    (fun t => t.mem.cell 0x3000 == 0x1234 && t.mem.cell 0x3001 == 0x0000 && t.run == .running && t.pc == 0x3000) = true := by
  decide                                                                                            -- I6
theorem test_load_stops_at_top :
    loadedIs (State.reset.resetWith (.bytes [0xFF, 0xFE, 0x00, 0x01, 0x00, 0x02, 0x00, 0x03, 0x00, 0x04]) [])
      (fun t => t.mem.cell 0xFFFE == 0x0001 && t.mem.cell 0xFFFF == 0x0002 && t.mem.cell 0x0000 == 0x0000) = true := by
  decide                                                                                            -- I7
theorem test_load_later_wins :
    loadedIs (State.reset.resetWith (.bytes [0x30, 0x00, 0x00, 0x01, 0x00, 0x02, 0x00, 0x03]) [.bytes [0x30, 0x01, 0x00, 0x0A]])
      (fun t => t.mem.cell 0x3000 == 0x0001 && t.mem.cell 0x3001 == 0x000A && t.mem.cell 0x3002 == 0x0003) = true := by
  decide                                                                                            -- I10
theorem test_load_second_unopenable :
    loadErrorIs (State.reset.resetWith (.bytes [0x30, 0x00, 0xF0, 0x25]) [.unopenable]) { index := 1, cause := .openFailed } =
      true := by decide                                                                             -- I11
theorem test_load_short_header : loadErrorIs (State.reset.resetWith (.bytes [0x30]) []) { index := 0, cause := .header } =
    true := by decide                                                                               -- I3

/-! ### Witnesses: for every statement with hypotheses, a state and operands that meet them together -/

theorem witness_DecodeOfEncodeIsIdentity :
    (Instr.trapBad26to27 0x27).wf = true ∧ (Instr.trapBad00to1F 0x1F).wf = true ∧ (Instr.trapBad80toFF 0x80).wf = true := by
  decide
theorem witness_EveryWordHasExactlyOneRow : (Instr.trapBad00to1F 0x1F).row.covers 0xFA1F = true := by decide
theorem witness_IgnoredBitsDoNotChangeDecoding :
    ∀ i < 16, (decode 0x1042).row.ignored.getLsbD i = false → (0x105A : Word).getLsbD i = (0x1042 : Word).getLsbD i := by
  decide
theorem witness_MemReadAtEveryAddress :
    State.reset.mem.wf = true ∧ (0xFE02 : Word) ≠ config.kbsrAddr ∧ (0xFE00 : Word) = config.kbsrAddr ∧
      State.reset.arrive.inReady.1 = false ∧ (State.reset.plan [ready [0x41]] none).arrive.inReady.1 = true ∧
      (State.reset.plan [] (some 0x41)).arrive.inReady.1 = true := by decide
theorem witness_MemWriteIsPlainStorage : (State.reset.memWrite 0xFE00 0x00FF).mem.wf = true := by decide
theorem witness_InReadyIsAConstrainedDraw :
    ({ State.reset with inq := [0x41], polls := [ready []] } : State).inReady.1 = true ∧
      ({ State.reset with inq := [0x41] } : State).inq ≠ [] := by decide
theorem witness_AddRegister : HasOpcode 0x105A .add ∧ slice 0x105A 5 5 = 0 ∧ slice 0x105A 11 9 = (0 : RegIdx) ∧
    slice 0x105A 8 6 = (1 : RegIdx) ∧ slice 0x105A 2 0 = (2 : RegIdx) := by decide
theorem witness_AddImmediate : HasOpcode 0x12BD .add ∧ slice 0x12BD 5 5 = 1 ∧ slice 0x12BD 11 9 = (1 : RegIdx) ∧
    slice 0x12BD 8 6 = (2 : RegIdx) ∧ slice 0x12BD 4 0 = (0b11101 : BitVec 5).toNat := by decide
theorem witness_AndRegister : HasOpcode 0x5AC4 .and ∧ slice 0x5AC4 5 5 = 0 ∧ slice 0x5AC4 11 9 = (5 : RegIdx) ∧
    slice 0x5AC4 8 6 = (3 : RegIdx) ∧ slice 0x5AC4 2 0 = (4 : RegIdx) := by decide
theorem witness_AndImmediate : HasOpcode 0x52B0 .and ∧ slice 0x52B0 5 5 = 1 ∧ slice 0x52B0 11 9 = (1 : RegIdx) ∧
    slice 0x52B0 8 6 = (2 : RegIdx) ∧ slice 0x52B0 4 0 = (0b10000 : BitVec 5).toNat := by decide
theorem witness_Not : HasOpcode 0x9280 .not ∧ slice 0x9280 11 9 = (1 : RegIdx) ∧ slice 0x9280 8 6 = (2 : RegIdx) := by decide
theorem witness_Branch_word : HasOpcode 0x0900 .br ∧ slice 0x0900 11 9 = (0b100 : BitVec 3).toNat ∧
    slice 0x0900 8 0 = (0b100000000 : BitVec 9).toNat := by decide
theorem witness_Branch_flags :
    (State.reset.setcc 0x8000).cond = config.flNeg ∧ State.reset.cond = config.flZro ∧
      (State.reset.setcc 0x7FFF).cond = config.flPos ∧ State.reset.condLegal = true := by decide
theorem witness_Jump : HasOpcode 0xCEBF .jmp ∧ slice 0xCEBF 8 6 = (2 : RegIdx) := by decide
theorem witness_Jsr : HasOpcode 0x4C00 .jsr ∧ slice 0x4C00 11 11 = 1 ∧ slice 0x4C00 10 0 = (0x400 : BitVec 11).toNat := by decide
theorem witness_Jsrr : HasOpcode 0x41C0 .jsr ∧ slice 0x41C0 11 11 = 0 ∧ slice 0x41C0 8 6 = (7 : RegIdx) := by decide
theorem witness_Ld : HasOpcode 0x21FF .ld ∧ slice 0x21FF 11 9 = (0 : RegIdx) ∧ slice 0x21FF 8 0 = (0x1FF : BitVec 9).toNat := by
  decide
theorem witness_Ldi : HasOpcode 0xA202 .ldi ∧ slice 0xA202 11 9 = (1 : RegIdx) ∧ slice 0xA202 8 0 = (2 : BitVec 9).toNat := by
  decide
theorem witness_Ldr : HasOpcode 0x64E0 .ldr ∧ slice 0x64E0 11 9 = (2 : RegIdx) ∧ slice 0x64E0 8 6 = (3 : RegIdx) ∧
    slice 0x64E0 5 0 = (0x20 : BitVec 6).toNat := by decide
theorem witness_Lea : HasOpcode 0xE8FF .lea ∧ slice 0xE8FF 11 9 = (4 : RegIdx) ∧ slice 0xE8FF 8 0 = (0xFF : BitVec 9).toNat := by
  decide
theorem witness_St : HasOpcode 0x3003 .st ∧ slice 0x3003 11 9 = (0 : RegIdx) ∧ slice 0x3003 8 0 = (3 : BitVec 9).toNat ∧
    State.reset.mem.wf = true := by decide
theorem witness_Sti : HasOpcode 0xB201 .sti ∧ slice 0xB201 11 9 = (1 : RegIdx) ∧ slice 0xB201 8 0 = (1 : BitVec 9).toNat ∧
    State.reset.mem.wf = true := by decide
theorem witness_Str : HasOpcode 0x74C1 .str ∧ slice 0x74C1 11 9 = (2 : RegIdx) ∧ slice 0x74C1 8 6 = (3 : RegIdx) ∧
    slice 0x74C1 5 0 = (1 : BitVec 6).toNat ∧ State.reset.mem.wf = true := by decide
theorem witness_TrapVectorSelectsTheRoutine :
    HasOpcode 0xFF25 .trap ∧ slice 0xFF25 7 0 = 0x25 ∧ slice 0xF020 7 0 = 0x20 ∧ slice 0xF021 7 0 = 0x21 ∧
      slice 0xF022 7 0 = 0x22 ∧ slice 0xF023 7 0 = 0x23 ∧ slice 0xF024 7 0 = 0x24 ∧ slice 0xF01F 7 0 < 0x20 ∧
      0x25 < slice 0xF026 7 0 := by decide
theorem witness_GetcharDeliversTheOldestByte : (State.reset.receive [0xFF, 0x00]).inq = 0xFF :: [0x00] := by decide
theorem witness_PutsAndPutspRunTheStringLoop :
    let s := start 0x3000 [(0, 0xFDFF)] [(0xFDFF, 0x0041)]
    s.mem.wf = true ∧ s.feed = none ∧ nextIs (exec .trapPuts s) (fun _ => true) = true := by decide
theorem witness_PutsAndPutspWriteTheString :
    let s := start 0x3000 [(0, 0xFFFF)] [(0xFFFF, 0x0041), (0x0000, 0x4200)]
    (∀ i ≤ 2, s.reg 0 + BitVec.ofNat 16 i ≠ config.kbsrAddr) ∧
      (∀ i < 2, s.mem.cell (s.reg 0 + BitVec.ofNat 16 i) ≠ 0x0000) ∧
      s.mem.cell (s.reg 0 + BitVec.ofNat 16 2) = 0x0000 := by decide
theorem witness_InPromptsReadsAndEchoes : (State.reset.receive [0x7A]).inq = 0x7A :: [] := by decide
theorem witness_InputTrapsWaitExactlyForInput : State.reset.inq = [] ∧ ([0x41] : List Byte) ≠ [] := by decide
theorem witness_RtiAndRes : HasOpcode 0x8ABC .rti ∧ HasOpcode 0xDFFF .res := by decide
theorem witness_StepRunsTheDecodedInstruction :
    let s := start 0x3000 [] [(0x3000, 0x1042)]
    s.run = .running ∧ s.pc ≠ config.kbsrAddr ∧ decode (s.mem.cell s.pc) = .addReg 0 1 2 := by decide
theorem witness_PlacedWordIsTheNextInstruction :
    State.reset.mem.wf = true ∧ State.reset.run = .running ∧ State.reset.pc ≠ config.kbsrAddr := by decide
theorem witness_FetchFromTheStatusRegister :
    let s := start 0xFE00 [] [(0xFE00, 0x1234)]
    s.mem.wf = true ∧ s.run = .running ∧ s.pc = config.kbsrAddr ∧ s.arrive.inReady.1 = false ∧
      (s.plan [ready [0x5A]] none).arrive.inReady.1 = true := by decide
theorem witness_RunStateTransitions :
    (∃ t, step (start 0x3000 [] [(0x3000, 0xF025)]) = .next t) ∧ State.reset.halt.run = .halted ∧
      (State.reset.raise (.fatalOpcode .res)).run = .fatal (.fatalOpcode .res) ∧
      ∃ t, State.reset.halt.resetWith (.bytes [0x30, 0x00, 0xF0, 0x25]) [] = .ok t := ⟨⟨_, rfl⟩, rfl, rfl, _, rfl⟩
theorem witness_StoreIsSeenByTheNextFetch :
    let s := start 0x3000 [(0, 0xF025)] [(0x3000, 0x3000)]
    s.mem.wf = true ∧ s.run = .running ∧ s.pc ≠ config.kbsrAddr ∧ s.pc + 1 ≠ config.kbsrAddr ∧
      decode (s.mem.cell s.pc) = .st 0 0 := by decide
theorem witness_FlagsFollowTheListedWritesOnly :
    (∃ t, exec (.lea 4 0xFF) State.reset = .next t) ∧ ∃ t, exec (.jsr 2) State.reset = .next t := ⟨⟨_, rfl⟩, ⟨_, rfl⟩⟩
theorem witness_OnlyNamedRegistersAreWritten : ∃ t, exec (.trapBad00to1F 0) State.reset = .next t := ⟨_, rfl⟩
theorem witness_OnlyStoresAndPollsChangeMemory :
    State.reset.mem.wf = true ∧ (∃ t, exec (.st 0 3) State.reset = .next t) ∧
      storeAddress (.st 0 3) State.reset ≠ some 0xFE00 ∧ readsMemory (.st 0 3) = false ∧
      (∃ t, exec (.ld 0 3) State.reset = .next t) ∧ storeAddress (.ld 0 3) State.reset ≠ some 0xFE01 ∧
      readsMemory (.ld 0 3) = true ∧ (0xFE01 : Word) ≠ config.kbsrAddr ∧ (0xFE01 : Word) ≠ config.kbdrAddr :=
  ⟨by decide, ⟨_, rfl⟩, by decide, rfl, ⟨_, rfl⟩, by decide, rfl, by decide, by decide⟩
theorem witness_OutputGrowsAndInputIsTakenInOrder :
    ∃ t, step { start 0x3000 [] [(0x3000, 0xF023)] with inq := [0x7A] } = .next t := ⟨_, rfl⟩
theorem witness_PendingInputIsInvisible :
    drawsInput (.str 2 3 1) = false ∧ ∃ t, exec (.str 2 3 1) State.reset = .next t := ⟨rfl, ⟨_, rfl⟩⟩
theorem witness_StepKeepsTheInvariant :
    (start 0x3000 [] [(0x3000, 0xF026)]).Inv ∧ ∃ t, step (start 0x3000 [] [(0x3000, 0xF026)]) = .next t :=
  ⟨by decide, ⟨_, rfl⟩⟩
theorem witness_InvariantHoldsOfEveryReachableState :
    State.reset.Inv ∧ ∃ t, Reach State.reset t ∧ t.inq = [0x41] ∧ t.feed = some 0x42 :=
  ⟨by decide, _, .tail (.tail .refl (.input _ [0x41])) (.plan _ [] (some 0x42)), rfl, rfl⟩
theorem witness_LoadImagePutsEveryWord :
    State.reset.mem.wf = true ∧ ([0x30] : List Byte).length < 2 ∧ 2 ≤ ([0x30, 0x00] : List Byte).length := by decide
theorem witness_ResetGivesTheInitialState :
    (∀ img ∈ [ImageStream.bytes [0x30, 0x00], .bytes [0xFF, 0xFF, 0xAA, 0xAA, 0xBB]], imageFault img = none) ∧
      ∃ t, State.reset.resetWith (.bytes [0x30, 0x00]) [.bytes [0xFF, 0xFF, 0xAA, 0xAA, 0xBB]] = .ok t :=
  ⟨by decide, _, rfl⟩
theorem witness_FirstFaultyImageEndsReset :
    ([ImageStream.bytes [0x30, 0x00], .unopenable][1]?.bind imageFault = some .openFailed) ∧
      ∀ k < 1, [ImageStream.bytes [0x30, 0x00], .unopenable][k]?.bind imageFault = none := by decide
/-- One image alone, and one behind another. -/
theorem witness_LoadedImageIsReadBack :
    let img := ImageStream.bytes (imageBytes 0xFFFE [0x1234, 0xABCD])
    imageFault img = none ∧ [img].getLast? = some img ∧ imageFault (.bytes [0x30, 0x00]) = none ∧
      [.bytes [0x30, 0x00], img].getLast? = some img ∧
      (0xFFFE : Word).toNat + ([0x1234, 0xABCD] : List Word).length ≤ 65536 ∧
      (0xFFFE : Word) + BitVec.ofNat 16 1 ≠ config.kbsrAddr := by decide

/-- Memory with the byte 0x41 at each of the `n` addresses from `a` on. -/
def filled (a : Nat) : Nat → Memory
  | 0 => []
  | n + 1 => (a, 0x41) :: filled (a + 1) n

theorem wf_filled (a n : Nat) (h : a + n ≤ memBytes) : Memory.wfFrom a (filled a n) = true := by
  induction n generalizing a with
  | zero => rfl
  | succ n ih =>
    have h1 : a < memBytes := by omega
    simpa [filled, Memory.wfFrom, unlistedByte, h1] using ih (a + 1) (by omega)

theorem byteAt_filled (a n x : Nat) (h1 : a ≤ x) (h2 : x < a + n) : Memory.byteAt (filled a n) x = 0x41 := by
  induction n generalizing a with
  | zero => omega
  | succ n ih =>
    rw [filled, Memory.byteAt]
    split_ifs with h
    · rfl
    · exact ih (a + 1) (by omega) (by omega)

/-- Every cell 0x4141, and an environment that never stops sending the byte 0x42. -/
theorem witness_PutsAndPutspHangExactlyWhenTheLoopNeverEnds :
    let s : State := { State.reset with mem := filled 0 131072, feed := some 0x42 }
    s.mem.wf = true ∧ s.polls = [] ∧ (∃ b, s.feed = some b ∧ b ≠ 0x00) ∧ (∀ b ∈ s.inq, b ≠ 0x00) ∧
      ∀ c, c ≠ config.kbsrAddr → s.mem.cell c ≠ 0x0000 := by
  refine ⟨wf_filled 0 131072 (by decide), rfl, ⟨0x42, rfl, by decide⟩, by simp [State.reset], fun c _ => ?_⟩
  have := c.isLt
  show Memory.cell (filled 0 131072) c ≠ 0x0000
  rw [Memory.cell, byteAt_filled _ _ _ (by omega) (by omega), byteAt_filled _ _ _ (by omega) (by omega)]
  decide

end Sys2Proof.Tests
end

