-- ==== Sys2Proof/Proofs/SignExtension.lean ====
section
/-! PROOF. What sign extension answers, as a formula on the field's value and on its low bits (00_scope.md R8). -/

namespace Sys2Proof.Machine

/-- The Word of a number less 2^w, taken from the signed integers, is R8's sum with `0xFFFF << w`: the two numbers differ by
`2^16 * 2^w`. -/
theorem ofInt_sub_two_pow (n w : Nat) :
    BitVec.ofInt 16 ((n : Int) - (2 ^ w : Nat)) = BitVec.ofNat 16 (n + 0xFFFF * 2 ^ w) := by
  have hsum : ((n + 0xFFFF * 2 ^ w : Nat) : Int) = (n : Int) - (2 ^ w : Nat) + (2 ^ 16 : Nat) * (2 ^ w : Nat) := by
    push_cast
    ring
  apply BitVec.eq_of_toInt_eq
  rw [← BitVec.ofInt_natCast, BitVec.toInt_ofInt, BitVec.toInt_ofInt, hsum, Int.add_mul_bmod_self_left]

/-- R8's formula. It holds of a field of every width. -/
theorem sext_eq_ofNat {w : Nat} (f : BitVec w) :
    sext f = BitVec.ofNat 16 (if f.getLsbD (w - 1) then f.toNat + 0xFFFF * 2 ^ w else f.toNat) := by
  rw [sext, BitVec.signExtend, BitVec.toInt_eq_msb_cond, BitVec.msb_eq_getLsbD_last]
  split
  case isTrue => exact ofInt_sub_two_pow f.toNat w
  case isFalse => exact BitVec.ofInt_natCast 16 f.toNat

/-- The low bits of a sign-extended field are the field. -/
theorem extractLsb'_sext {w : Nat} (f : BitVec w) (hw : w ≤ 16) : (sext f).extractLsb' 0 w = f := by
  ext i hi
  have hi16 : i < 16 := by omega
  simp [sext, BitVec.getElem_signExtend, hi, hi16]

end Sys2Proof.Machine

namespace Sys2Proof.Proofs

open Sys2Proof.Machine

/-- Settles O6: the four widths are at most 16, and there the low bits of the extension give the field back. -/
theorem signExtensionKeepsTheSignedValue : Obligations.SignExtensionKeepsTheSignedValue := by
  refine ⟨fun w hmem f => ?_, toNat_zext8⟩
  have hw : w ≤ 16 := by
    simp only [List.mem_cons, List.not_mem_nil, or_false] at hmem
    omega
  exact ⟨sext_eq_ofNat f, toInt_sext f hw, congrArg sext (extractLsb'_sext f hw)⟩

end Sys2Proof.Proofs
end

