-- ==== Sys2Proof/Proofs/Flags.lean ====
section
/-! PROOF. The flag computation, and which instructions end with it (10_state.md R25, R26). -/

namespace Sys2Proof.Machine

open Sys2Proof.Claims

/-! ### setcc -/

/-- The flag Word describes the signed value it is computed from. -/
theorem flagsOf_flagOf (v : Word) : FlagsOf v (flagOf v) :=
  ⟨flagOf_of_toInt_eq_zero, flagOf_of_toInt_neg, flagOf_of_toInt_pos⟩

/-- The three flag Words differ, so only one of them is the flag Word of `v`. -/
theorem count_flagOf (v : Word) : [config.flPos, config.flZro, config.flNeg].count (flagOf v) = 1 := by
  obtain h | h | h := flagOf_cases v <;> rw [h] <;> decide

/-- After `x[i] <- v; setcc(x[i])` the flags describe what `x[i]` reads as. -/
theorem State.flagsOf_setRegCC (s : State) (i : RegIdx) (v : Word) :
    FlagsOf ((s.setRegCC i v).reg i) (s.setRegCC i v).cond := by
  simpa using flagsOf_flagOf v

/-! ### Which instructions set the flags -/

/-- A meaning that answers the next state `u` answers no other. -/
theorem eq_of_next_eq {u t : State} (h : (.next u : Result) = .next t) : t = u := by
  injection h with h
  exact h.symm

/-- Every instruction of R26's list ends with `x[r] <- v; setcc(x[r])`, over some state `u` it has reached by then. -/
theorem exec_eq_setRegCC {i : Instr} {s t : State} {r : RegIdx} (hr : flagRegister i = some r)
    (h : exec i s = .next t) : ∃ u v, t = State.setRegCC u r v := by
  cases i with
  | addReg | addImm | andReg | andImm | not | ld | ldr | lea =>
    cases hr
    exact ⟨_, _, eq_of_next_eq h⟩
  | ldi _ off =>
    cases hr
    exact ⟨_, _, eq_of_next_eq ((execLdi_eq _ off s).symm.trans h)⟩
  | trapGetchar =>
    cases hr
    obtain ⟨b, rest, -, ht⟩ := execTrapGetchar_next h
    exact ⟨_, zext8 b, ht⟩
  | trapIn =>
    cases hr
    obtain ⟨b, rest, -, ht⟩ := execTrapIn_next h
    exact ⟨_, zext8 b, ht⟩
  | _ => cases hr

/-- Neither reads, scans, stores, outputs nor the link write touch the flags: an instruction off R26's list keeps them. -/
theorem exec_keeps_cond {i : Instr} {s t : State} (hr : flagRegister i = none) (h : exec i s = .next t) :
    t.cond = s.cond := by
  cases i with
  | addReg | addImm | andReg | andImm | not | ld | ldi | ldr | lea | trapGetchar | trapIn => cases hr
  | br mask off =>
    rw [eq_of_next_eq h]
    split
    · exact s.setPc_cond _
    · rfl
  | sti sr off =>
    rw [eq_of_next_eq ((execSti_eq sr off s).symm.trans h)]
    simp
  | trapPuts | trapPutsp =>
    obtain ⟨-, hcond, -, -⟩ := writeString_frame (putString_next h)
    exact hcond
  | _ =>
    rw [eq_of_next_eq h]
    rfl

end Sys2Proof.Machine

namespace Sys2Proof.Proofs

open Sys2Proof.Machine

/-- Settles O7: the cases of setcc are those of the flag Word it assigns to `cond`. -/
theorem setccDescribesTheValue : Obligations.SetccDescribesTheValue :=
  fun _ v => ⟨flagOf_of_zero, fun _ => flagOf_of_neg, flagOf_of_pos, flagsOf_flagOf v, count_flagOf v, rfl⟩

/-- Settles O42: an instruction of the list ends by setting the flags from the register it writes, every other keeps them. -/
theorem flagsFollowTheListedWritesOnly : Obligations.FlagsFollowTheListedWritesOnly := by
  intro i s t h
  split
  next r hr =>
    obtain ⟨u, v, rfl⟩ := exec_eq_setRegCC hr h
    exact u.flagsOf_setRegCC r v
  next hr => exact exec_keeps_cond hr h

end Sys2Proof.Proofs
end

