-- ==== Sys2Proof/Proofs/Fields.lean ====
section
/-! PROOF. The decoder's fields from the slices `w[hi:lo]` of 00_scope.md R7, in which the statements name them
(30_encoding.md R82, R85). -/

namespace Sys2Proof

open Sys2Proof.Claims

variable {w : Word}

theorem opcodeOf_fieldOpcode_of_hasOpcode {o : Opcode} (h : HasOpcode w o) : opcodeOf (fieldOpcode w) = o := by
  have hfield : fieldOpcode w = config.opc o := BitVec.eq_of_toNat_eq ((toNat_fieldOpcode w).trans h)
  rw [hfield, opcodeOf_opc]

theorem fieldR11_of_slice {r : RegIdx} (h : slice w 11 9 = r) : fieldR11 w = r := Fin.ext ((val_fieldR11 w).trans h)

theorem fieldR8_of_slice {r : RegIdx} (h : slice w 8 6 = r) : fieldR8 w = r := Fin.ext ((val_fieldR8 w).trans h)

theorem fieldImm5_of_slice {imm5 : BitVec 5} (h : slice w 4 0 = imm5.toNat) : fieldImm5 w = imm5 :=
  BitVec.eq_of_toNat_eq ((toNat_extract w 0 5).trans h)

theorem fieldImmMode_of_slice (h : slice w 5 5 = 1) : fieldImmMode w = true :=
  (fieldImmMode_eq w).trans (decide_eq_true h)

end Sys2Proof
end

