-- ==== Sys2Proof/Proofs/Alu.lean ====
section
/-! PROOF. ADD and AND with an immediate: which Words they are, and their result as a signed sum and bit by bit
(40_alu.md R111, R113). -/

namespace Sys2Proof.Machine

open Sys2Proof.Claims

/-! ### The immediate -/

/-- The Word sum with a sign-extended field is the signed sum, wrapped modulo 2^16 (40_alu.md R115). It holds of a
field of every width, since extension keeps the signed value modulo 2^16. -/
theorem add_sext_eq_ofInt {w : Nat} (v : Word) (f : BitVec w) : v + sext f = BitVec.ofInt 16 (v.toInt + f.toInt) := by
  rw [BitVec.ofInt_add, BitVec.ofInt_toInt, sext, BitVec.signExtend]

/-- Bit `w` stands for itself and every bit above it in the extension of a field of `w + 1` bits. -/
theorem getLsbD_sext {w i : Nat} (f : BitVec (w + 1)) (hi : i < 16) : (sext f).getLsbD i = f.getLsbD (min i w) := by
  rw [sext, BitVec.getLsbD_signExtend, BitVec.msb_eq_getLsbD_last, decide_eq_true hi, Bool.true_and]
  split
  case isTrue hlow => rw [Nat.min_eq_left (by omega)]
  case isFalse hhigh => rw [Nat.min_eq_right (by omega), Nat.add_sub_cancel]

/-! ### Selection -/

theorem decode_of_hasOpcode_add_imm {w : Word} (ho : HasOpcode w .add) (hmode : slice w 5 5 = 1) :
    decode w = .addImm (fieldR11 w) (fieldR8 w) (fieldImm5 w) := by
  rw [decode, opcodeOf_fieldOpcode_of_hasOpcode ho]
  exact if_pos (fieldImmMode_of_slice hmode)

theorem decode_of_hasOpcode_and_imm {w : Word} (ho : HasOpcode w .and) (hmode : slice w 5 5 = 1) :
    decode w = .andImm (fieldR11 w) (fieldR8 w) (fieldImm5 w) := by
  rw [decode, opcodeOf_fieldOpcode_of_hasOpcode ho]
  exact if_pos (fieldImmMode_of_slice hmode)

/-! ### Effect -/

theorem State.reg_setRegCC_same (s : State) (i : RegIdx) (v : Word) : (s.setRegCC i v).reg i = v :=
  (s.reg_setRegCC i i v).trans (if_pos rfl)

/-- `x[dr] <- v; setcc(x[dr])` writes the result and leaves everything else as it was. -/
theorem State.writesResult_setRegCC (s : State) (dr : RegIdx) (v : Word) : WritesResult s (s.setRegCC dr v) dr v := by
  have hother : SameRegsBut s (s.setRegCC dr v) [dr] := fun j hj => by
    rw [reg_setRegCC, if_neg (List.ne_of_not_mem_cons hj)]
  exact ⟨s.reg_setRegCC_same dr v, flagsOf_flagOf v, hother, rfl, fun _ => rfl, rfl, rfl, rfl, rfl, rfl, rfl⟩

theorem exec_addImm (dr sr1 : RegIdx) (imm5 : BitVec 5) (s : State) :
    exec (.addImm dr sr1 imm5) s = .next (s.setRegCC dr (s.reg sr1 + sext imm5)) := rfl

theorem exec_andImm (dr sr1 : RegIdx) (imm5 : BitVec 5) (s : State) :
    exec (.andImm dr sr1 imm5) s = .next (s.setRegCC dr (s.reg sr1 &&& sext imm5)) := rfl

end Sys2Proof.Machine

namespace Sys2Proof.Proofs

open Sys2Proof.Machine

/-- Settles O12: the Word sum with the extended immediate is the signed sum, wrapped. -/
theorem addImmediateWritesTheWrappedSum : Obligations.AddImmediateWritesTheWrappedSum := by
  intro dr sr1 imm5
  constructor
  · intro w ho hmode hdr hsr1 himm5
    rw [decode_of_hasOpcode_add_imm ho hmode, fieldR11_of_slice hdr, fieldR8_of_slice hsr1, fieldImm5_of_slice himm5]
  · intro s
    rw [← add_sext_eq_ofInt]
    exact ⟨_, exec_addImm dr sr1 imm5 s, s.writesResult_setRegCC dr _⟩

/-- Settles O14: bit 4 of the immediate stands for every bit from 4 up of the Word the register is ANDed with. -/
theorem andImmediateExtendsTheSign : Obligations.AndImmediateExtendsTheSign := by
  intro dr sr1 imm5
  constructor
  · intro w ho hmode hdr hsr1 himm5
    rw [decode_of_hasOpcode_and_imm ho hmode, fieldR11_of_slice hdr, fieldR8_of_slice hsr1, fieldImm5_of_slice himm5]
  · intro s
    refine ⟨_, exec_andImm dr sr1 imm5 s, ?_, fun i hi => ?_⟩
    · rw [State.reg_setRegCC_same]
      exact s.writesResult_setRegCC dr _
    · rw [State.reg_setRegCC_same, BitVec.getLsbD_and, getLsbD_sext imm5 hi]

end Sys2Proof.Proofs
end

