-- ==== Sys2Proof/Proofs/Control.lean ====
section
/-! PROOF. JSR: which Words it is, and the jump with link it ends with (41_control.md R122). -/

namespace Sys2Proof

open Sys2Proof.Claims

variable {w : Word}

/-! ### Selection -/

theorem fieldPcoffset11_of_slice {off : BitVec 11} (h : slice w 10 0 = off.toNat) : fieldPcoffset11 w = off :=
  BitVec.eq_of_toNat_eq ((toNat_extract w 0 11).trans h)

theorem fieldJsrMode_of_slice (h : slice w 11 11 = 1) : fieldJsrMode w = true :=
  (fieldJsrMode_eq w).trans (decide_eq_true h)

theorem decode_of_hasOpcode_jsr_offset (ho : HasOpcode w .jsr) (hmode : slice w 11 11 = 1) :
    decode w = .jsr (fieldPcoffset11 w) := by
  rw [decode, opcodeOf_fieldOpcode_of_hasOpcode ho]
  exact if_pos (fieldJsrMode_of_slice hmode)

end Sys2Proof

namespace Sys2Proof.Machine

open Sys2Proof.Claims

/-! ### Effect -/

theorem State.reg_link_linkReg (s : State) : s.link.reg linkReg = s.pc :=
  (s.reg_link linkReg).trans (if_pos rfl)

/-- The link write and a jump change x[7] and pc, and nothing else (41_control.md R124). -/
theorem State.onlyControl_link_setPc (s : State) (v : Word) : OnlyControl s (s.link.setPc v) [linkReg] := by
  have hother : SameRegsBut s (s.link.setPc v) [linkReg] := fun j hj => by
    rw [reg_setPc, reg_link, if_neg (List.ne_of_not_mem_cons hj)]
  exact ⟨hother, rfl, fun _ => rfl, rfl, rfl, rfl, rfl, rfl, rfl⟩

/-- The link write leaves pc alone, so JSR's target is relative to the pc it saves. -/
theorem exec_jsr (off : BitVec 11) (s : State) : exec (.jsr off) s = .next (s.link.setPc (s.pc + sext off)) := rfl

end Sys2Proof.Machine

namespace Sys2Proof.Proofs

open Sys2Proof.Machine

/-- Settles O18: the link write keeps pc, and the Word sum with the extended offset is the exact sum, wrapped. -/
theorem jsrLinksAndJumpsRelative : Obligations.JsrLinksAndJumpsRelative := by
  intro off
  constructor
  · intro w ho hmode hoff
    rw [decode_of_hasOpcode_jsr_offset ho hmode, fieldPcoffset11_of_slice hoff]
  · intro s
    rw [← add_sext s.pc off (by decide)]
    exact ⟨_, exec_jsr off s, s.reg_link_linkReg, rfl, s.onlyControl_link_setPc _⟩

end Sys2Proof.Proofs
end

