-- ==== Sys2Proof/Proofs/LoadStore.lean ====
section
/-! PROOF. LD, LDI, LDR, LEA, ST, STI, STR: which Words they are, and the load or the store they end with
(42_load_store.md R130 to R136). -/

namespace Sys2Proof

open Sys2Proof.Claims

variable {w : Word}

/-! ### Selection -/

theorem fieldPcoffset9_of_slice {off : BitVec 9} (h : slice w 8 0 = off.toNat) : fieldPcoffset9 w = off :=
  BitVec.eq_of_toNat_eq ((toNat_extract w 0 9).trans h)

theorem fieldOffset6_of_slice {off : BitVec 6} (h : slice w 5 0 = off.toNat) : fieldOffset6 w = off :=
  BitVec.eq_of_toNat_eq ((toNat_extract w 0 6).trans h)

theorem decode_of_hasOpcode_ld (ho : HasOpcode w .ld) : decode w = .ld (fieldR11 w) (fieldPcoffset9 w) := by
  rw [decode, opcodeOf_fieldOpcode_of_hasOpcode ho]

theorem decode_of_hasOpcode_ldi (ho : HasOpcode w .ldi) : decode w = .ldi (fieldR11 w) (fieldPcoffset9 w) := by
  rw [decode, opcodeOf_fieldOpcode_of_hasOpcode ho]

theorem decode_of_hasOpcode_ldr (ho : HasOpcode w .ldr) :
    decode w = .ldr (fieldR11 w) (fieldR8 w) (fieldOffset6 w) := by
  rw [decode, opcodeOf_fieldOpcode_of_hasOpcode ho]

theorem decode_of_hasOpcode_lea (ho : HasOpcode w .lea) : decode w = .lea (fieldR11 w) (fieldPcoffset9 w) := by
  rw [decode, opcodeOf_fieldOpcode_of_hasOpcode ho]

theorem decode_of_hasOpcode_st (ho : HasOpcode w .st) : decode w = .st (fieldR11 w) (fieldPcoffset9 w) := by
  rw [decode, opcodeOf_fieldOpcode_of_hasOpcode ho]

theorem decode_of_hasOpcode_sti (ho : HasOpcode w .sti) : decode w = .sti (fieldR11 w) (fieldPcoffset9 w) := by
  rw [decode, opcodeOf_fieldOpcode_of_hasOpcode ho]

theorem decode_of_hasOpcode_str (ho : HasOpcode w .str) :
    decode w = .str (fieldR11 w) (fieldR8 w) (fieldOffset6 w) := by
  rw [decode, opcodeOf_fieldOpcode_of_hasOpcode ho]

end Sys2Proof

namespace Sys2Proof.Machine

open Sys2Proof.Claims

/-! ### Effective addresses -/

theorem State.pcRel9_eq_ofInt (s : State) (off : BitVec 9) :
    s.pcRel9 off = BitVec.ofInt 16 (s.pc.toNat + off.toInt) :=
  add_sext s.pc off (by decide)

theorem State.baseOffset_eq_ofInt (s : State) (baseR : RegIdx) (off : BitVec 6) :
    s.baseOffset baseR off = BitVec.ofInt 16 ((s.reg baseR).toNat + off.toInt) :=
  add_sext (s.reg baseR) off (by decide)

/-! ### The load and the store -/

/-- A read touches no register, so a frame of the registers may start before it or after it. -/
theorem sameRegsBut_of_memRead {s t : State} {ea : Word} {written : List RegIdx}
    (h : SameRegsBut (s.memRead ea).2 t written) : SameRegsBut s t written :=
  fun j hj => (h j hj).trans (s.memRead_reg ea j)

/-- A load writes the result over the state its read leaves, and the read itself touches memory and input only. -/
theorem State.loadsFrom_loadInto (s : State) (dr : RegIdx) (ea : Word) : LoadsFrom s (s.loadInto dr ea) dr ea := by
  obtain ⟨hdr, hflags, hregs, hpc, hcells, hrun, hout, hinput⟩ :=
    (s.memRead ea).2.writesResult_setRegCC dr (s.memRead ea).1
  exact ⟨hdr, hflags, sameRegsBut_of_memRead hregs, hpc.trans (s.memRead_pc ea), hcells, hrun.trans (s.memRead_run ea),
    hout.trans (s.memRead_out ea), hinput⟩

/-- A store into canonical memory changes the one cell. -/
theorem State.storesAt_memWrite {s : State} (hm : s.mem.wf = true) (ea v : Word) :
    StoresAt s (s.memWrite ea v) ea v :=
  ⟨Memory.cell_store hm ea v, fun _ _ => rfl, rfl, rfl, rfl, rfl, rfl, rfl, rfl, rfl⟩

/-! ### Effect -/

theorem exec_ld (dr : RegIdx) (off : BitVec 9) (s : State) :
    exec (.ld dr off) s = .next (s.loadInto dr (s.pcRel9 off)) := rfl

theorem exec_ldi (dr : RegIdx) (off : BitVec 9) (s : State) :
    exec (.ldi dr off) s = .next ((s.memRead (s.pcRel9 off)).2.loadInto dr (s.memRead (s.pcRel9 off)).1) :=
  execLdi_eq dr off s

theorem exec_ldr (dr baseR : RegIdx) (off : BitVec 6) (s : State) :
    exec (.ldr dr baseR off) s = .next (s.loadInto dr (s.baseOffset baseR off)) := rfl

theorem exec_lea (dr : RegIdx) (off : BitVec 9) (s : State) :
    exec (.lea dr off) s = .next (s.setRegCC dr (s.pcRel9 off)) := rfl

theorem exec_st (sr : RegIdx) (off : BitVec 9) (s : State) :
    exec (.st sr off) s = .next (s.memWrite (s.pcRel9 off) (s.reg sr)) := rfl

theorem exec_sti (sr : RegIdx) (off : BitVec 9) (s : State) :
    exec (.sti sr off) s = .next ((s.memRead (s.pcRel9 off)).2.memWrite (s.memRead (s.pcRel9 off)).1 (s.reg sr)) :=
  execSti_eq sr off s

theorem exec_str (sr baseR : RegIdx) (off : BitVec 6) (s : State) :
    exec (.str sr baseR off) s = .next (s.memWrite (s.baseOffset baseR off) (s.reg sr)) := rfl

end Sys2Proof.Machine

namespace Sys2Proof.Proofs

open Sys2Proof.Machine

/-- Settles O20: LD is the load at the pc-relative address. -/
theorem ldLoadsPcRelative : Obligations.LdLoadsPcRelative := by
  intro dr off
  constructor
  · intro w ho hdr hoff
    rw [decode_of_hasOpcode_ld ho, fieldR11_of_slice hdr, fieldPcoffset9_of_slice hoff]
  · intro s
    rw [← s.pcRel9_eq_ofInt]
    exact ⟨_, exec_ld dr off s, s.loadsFrom_loadInto dr _⟩

/-- Settles O21: the datum's load starts in the state the pointer's read left, which differs from `s` in memory and input
only. -/
theorem ldiReadsPointerThenDatum : Obligations.LdiReadsPointerThenDatum := by
  intro dr off
  constructor
  · intro w ho hdr hoff
    rw [decode_of_hasOpcode_ldi ho, fieldR11_of_slice hdr, fieldPcoffset9_of_slice hoff]
  · intro s
    rw [← s.pcRel9_eq_ofInt]
    have hload := (s.memRead (s.pcRel9 off)).2.loadsFrom_loadInto dr (s.memRead (s.pcRel9 off)).1
    have ⟨_, _, hregs, hpc, _, hrun, hout, _⟩ := hload
    exact ⟨_, exec_ldi dr off s, hload, sameRegsBut_of_memRead hregs, hpc.trans (s.memRead_pc _),
      hrun.trans (s.memRead_run _), hout.trans (s.memRead_out _)⟩

/-- Settles O22: LDR is the load at the base plus offset, the base read from the state before the load. -/
theorem ldrLoadsBasePlusOffset : Obligations.LdrLoadsBasePlusOffset := by
  intro dr baseR off
  constructor
  · intro w ho hdr hbase hoff
    rw [decode_of_hasOpcode_ldr ho, fieldR11_of_slice hdr, fieldR8_of_slice hbase, fieldOffset6_of_slice hoff]
  · intro s
    rw [← s.baseOffset_eq_ofInt]
    exact ⟨_, exec_ldr dr baseR off s, s.loadsFrom_loadInto dr _⟩

/-- Settles O23: LEA writes the pc-relative address as a result, with no read. -/
theorem leaWritesTheAddress : Obligations.LeaWritesTheAddress := by
  intro dr off
  constructor
  · intro w ho hdr hoff
    rw [decode_of_hasOpcode_lea ho, fieldR11_of_slice hdr, fieldPcoffset9_of_slice hoff]
  · intro s
    rw [← s.pcRel9_eq_ofInt]
    exact ⟨_, exec_lea dr off s, s.writesResult_setRegCC dr _⟩

/-- Settles O24: ST is the store at the pc-relative address. -/
theorem stStoresPcRelative : Obligations.StStoresPcRelative := by
  intro sr off
  constructor
  · intro w ho hsr hoff
    rw [decode_of_hasOpcode_st ho, fieldR11_of_slice hsr, fieldPcoffset9_of_slice hoff]
  · intro s hm
    rw [← s.pcRel9_eq_ofInt]
    exact ⟨_, exec_st sr off s, State.storesAt_memWrite hm _ _⟩

/-- Settles O25: the pointer's read keeps memory canonical, so the store after it changes the one cell; registers, flags,
pc, run state and output pass through both. -/
theorem stiStoresThroughThePointer : Obligations.StiStoresThroughThePointer := by
  intro sr off
  constructor
  · intro w ho hsr hoff
    rw [decode_of_hasOpcode_sti ho, fieldR11_of_slice hsr, fieldPcoffset9_of_slice hoff]
  · intro s hm
    rw [← s.pcRel9_eq_ofInt]
    have hstore := State.storesAt_memWrite (s.wf_memRead (s.pcRel9 off) hm) (s.memRead (s.pcRel9 off)).1 (s.reg sr)
    have ⟨_, hregs, hcond, hpc, hrun, hout, _⟩ := hstore
    exact ⟨_, exec_sti sr off s, hstore, sameRegsBut_of_memRead hregs, hcond.trans (s.memRead_cond _),
      hpc.trans (s.memRead_pc _), hrun.trans (s.memRead_run _), hout.trans (s.memRead_out _)⟩

/-- Settles O26: STR is the store at the base plus offset. -/
theorem strStoresBasePlusOffset : Obligations.StrStoresBasePlusOffset := by
  intro sr baseR off
  constructor
  · intro w ho hsr hbase hoff
    rw [decode_of_hasOpcode_str ho, fieldR11_of_slice hsr, fieldR8_of_slice hbase, fieldOffset6_of_slice hoff]
  · intro s hm
    rw [← s.baseOffset_eq_ofInt]
    exact ⟨_, exec_str sr baseR off s, State.storesAt_memWrite hm _ _⟩

end Sys2Proof.Proofs
end

