-- ==== Sys2Proof/Proofs/ExecutionLoop.lean ====
section
/-! PROOF. A step: the fetch through MemRead, the increment of pc, and the decoded instruction (45_execution_loop.md R160). -/

namespace Sys2Proof.Machine

/-- The fetch leaves the state MemRead left, with pc incremented as a number modulo 2^16. -/
theorem fetch_snd_eq_ofNat (s : State) :
    s.fetch.2 = { (s.memRead s.pc).2 with pc := BitVec.ofNat 16 (s.pc.toNat + 1) } := by
  rw [fetch_snd, BitVec.ofNat_add, BitVec.ofNat_toNat, BitVec.setWidth_eq]
  rfl

/-- A RUNNING core executes what the Word MemRead answers at pc decodes to. -/
theorem step_eq_exec_memRead {s : State} (h : s.run = .running) :
    step s = exec (decode (s.memRead s.pc).1)
      { (s.memRead s.pc).2 with pc := BitVec.ofNat 16 (s.pc.toNat + 1) } := by
  rw [step_of_running h, fetch_fst, fetch_snd_eq_ofNat]

end Sys2Proof.Machine

namespace Sys2Proof.Proofs

open Sys2Proof.Machine

/-- Settles O37: the fetch is MemRead and the increment, and away from the status register MemRead answers the cell and leaves
the state as it was. -/
theorem stepRunsTheDecodedInstruction : Obligations.StepRunsTheDecodedInstruction := by
  intro s hrun
  have hstep := step_eq_exec_memRead hrun
  refine ⟨hstep, fun i hpc hi => ?_⟩
  rw [hstep, s.memRead_plain hpc, hi]

end Sys2Proof.Proofs
end

