-- ==== Sys2Proof/Proofs/Selection.lean ====
section
/-! PROOF. Which instruction a Word of each format decodes to, by its slices `w[hi:lo]` (30_encoding.md R81, R82, R85): the
formats the files above have not met. -/

namespace Sys2Proof

open Sys2Proof.Claims

variable {w : Word}

/-! ### Fields -/

theorem fieldR2_of_slice {r : RegIdx} (h : slice w 2 0 = r) : fieldR2 w = r := Fin.ext ((toNat_extract w 0 3).trans h)

theorem fieldCond_of_slice {mask : BitVec 3} (h : slice w 11 9 = mask.toNat) : fieldCond w = mask :=
  BitVec.eq_of_toNat_eq ((toNat_fieldCond w).trans h)

theorem toNat_fieldTrapvect8_eq_slice : (fieldTrapvect8 w).toNat = slice w 7 0 := toNat_extract w 0 8

theorem fieldTrapvect8_of_slice {v : BitVec 8} (h : slice w 7 0 = v.toNat) : fieldTrapvect8 w = v :=
  BitVec.eq_of_toNat_eq (toNat_fieldTrapvect8_eq_slice.trans h)

theorem fieldImmMode_of_slice_zero (h : slice w 5 5 = 0) : fieldImmMode w = false := by
  have hbit : w.toNat / 32 % 2 = 0 := h
  rw [fieldImmMode_eq, hbit]
  rfl

theorem fieldJsrMode_of_slice_zero (h : slice w 11 11 = 0) : fieldJsrMode w = false := by
  have hbit : w.toNat / 2048 % 2 = 0 := h
  rw [fieldJsrMode_eq, hbit]
  rfl

/-! ### Selection -/

theorem decode_of_hasOpcode_add_reg (ho : HasOpcode w .add) (hmode : slice w 5 5 = 0) :
    decode w = .addReg (fieldR11 w) (fieldR8 w) (fieldR2 w) := by
  rw [decode, opcodeOf_fieldOpcode_of_hasOpcode ho, fieldImmMode_of_slice_zero hmode]
  rfl

theorem decode_of_hasOpcode_and_reg (ho : HasOpcode w .and) (hmode : slice w 5 5 = 0) :
    decode w = .andReg (fieldR11 w) (fieldR8 w) (fieldR2 w) := by
  rw [decode, opcodeOf_fieldOpcode_of_hasOpcode ho, fieldImmMode_of_slice_zero hmode]
  rfl

theorem decode_of_hasOpcode_jsr_base (ho : HasOpcode w .jsr) (hmode : slice w 11 11 = 0) :
    decode w = .jsrr (fieldR8 w) := by
  rw [decode, opcodeOf_fieldOpcode_of_hasOpcode ho, fieldJsrMode_of_slice_zero hmode]
  rfl

theorem decode_of_hasOpcode_not (ho : HasOpcode w .not) : decode w = .not (fieldR11 w) (fieldR8 w) := by
  rw [decode, opcodeOf_fieldOpcode_of_hasOpcode ho]

theorem decode_of_hasOpcode_br (ho : HasOpcode w .br) : decode w = .br (fieldCond w) (fieldPcoffset9 w) := by
  rw [decode, opcodeOf_fieldOpcode_of_hasOpcode ho]

theorem decode_of_hasOpcode_jmp (ho : HasOpcode w .jmp) : decode w = .jmp (fieldR8 w) := by
  rw [decode, opcodeOf_fieldOpcode_of_hasOpcode ho]

theorem decode_of_hasOpcode_trap (ho : HasOpcode w .trap) : decode w = decodeTrap (fieldTrapvect8 w) := by
  rw [decode, opcodeOf_fieldOpcode_of_hasOpcode ho]

theorem decode_of_hasOpcode_rti (ho : HasOpcode w .rti) : decode w = .rti := by
  rw [decode, opcodeOf_fieldOpcode_of_hasOpcode ho]

theorem decode_of_hasOpcode_res (ho : HasOpcode w .res) : decode w = .res := by
  rw [decode, opcodeOf_fieldOpcode_of_hasOpcode ho]

end Sys2Proof
end

