-- ==== Sys2Proof/Proofs/Encoding.lean ====
section
/-! PROOF. Decode and encode agree, and the rows of the opcode table part the Words between them (30_encoding.md sections 1 to
3). Two facts carry the section: decoding an encoded instruction gives it back, and encoding a decoded Word changes ignored bits
only. That the rows are total, disjoint and blind to ignored bits follows. -/

namespace Sys2Proof

open Sys2Proof.Machine Sys2Proof.Claims

/-! ### The slices of an encoded instruction -/

theorem slices_encRRR (o : Opcode) (dr sr1 sr2 : RegIdx) :
    HasOpcode (encRRR o dr sr1 sr2) o ∧ slice (encRRR o dr sr1 sr2) 5 5 = 0 ∧ slice (encRRR o dr sr1 sr2) 11 9 = dr ∧
      slice (encRRR o dr sr1 sr2) 8 6 = sr1 ∧ slice (encRRR o dr sr1 sr2) 2 0 = sr2 := by
  simp only [HasOpcode, slice, toNat_encRRR]
  omega

theorem slices_encRRI (o : Opcode) (dr sr1 : RegIdx) (imm5 : BitVec 5) :
    HasOpcode (encRRI o dr sr1 imm5) o ∧ slice (encRRI o dr sr1 imm5) 5 5 = 1 ∧ slice (encRRI o dr sr1 imm5) 11 9 = dr ∧
      slice (encRRI o dr sr1 imm5) 8 6 = sr1 ∧ slice (encRRI o dr sr1 imm5) 4 0 = imm5.toNat := by
  simp only [HasOpcode, slice, toNat_encRRI]
  omega

theorem slices_encRR (o : Opcode) (dr sr : RegIdx) :
    HasOpcode (encRR o dr sr) o ∧ slice (encRR o dr sr) 11 9 = dr ∧ slice (encRR o dr sr) 8 6 = sr := by
  simp only [HasOpcode, slice, toNat_encRR]
  omega

theorem slices_encBR (o : Opcode) (mask : BitVec 3) (off : BitVec 9) :
    HasOpcode (encBR o mask off) o ∧ slice (encBR o mask off) 11 9 = mask.toNat ∧
      slice (encBR o mask off) 8 0 = off.toNat := by
  simp only [HasOpcode, slice, toNat_encBR]
  omega

theorem slices_encB (o : Opcode) (baseR : RegIdx) : HasOpcode (encB o baseR) o ∧ slice (encB o baseR) 8 6 = baseR := by
  simp only [HasOpcode, slice, toNat_encB]
  omega

theorem slices_encJ11 (o : Opcode) (off : BitVec 11) :
    HasOpcode (encJ11 o off) o ∧ slice (encJ11 o off) 11 11 = 1 ∧ slice (encJ11 o off) 10 0 = off.toNat := by
  simp only [HasOpcode, slice, toNat_encJ11]
  omega

theorem slices_encJB (o : Opcode) (baseR : RegIdx) :
    HasOpcode (encJB o baseR) o ∧ slice (encJB o baseR) 11 11 = 0 ∧ slice (encJB o baseR) 8 6 = baseR := by
  simp only [HasOpcode, slice, toNat_encJB]
  omega

theorem slices_encRP9 (o : Opcode) (r : RegIdx) (off : BitVec 9) :
    HasOpcode (encRP9 o r off) o ∧ slice (encRP9 o r off) 11 9 = r ∧ slice (encRP9 o r off) 8 0 = off.toNat := by
  simp only [HasOpcode, slice, toNat_encRP9]
  omega

theorem slices_encRB6 (o : Opcode) (r baseR : RegIdx) (off : BitVec 6) :
    HasOpcode (encRB6 o r baseR off) o ∧ slice (encRB6 o r baseR off) 11 9 = r ∧ slice (encRB6 o r baseR off) 8 6 = baseR ∧
      slice (encRB6 o r baseR off) 5 0 = off.toNat := by
  simp only [HasOpcode, slice, toNat_encRB6]
  omega

theorem slices_encT8 (v : BitVec 8) : HasOpcode (encT8 v) .trap ∧ slice (encT8 v) 7 0 = v.toNat := by
  simp only [HasOpcode, slice, toNat_encT8]
  omega

theorem hasOpcode_encNone (o : Opcode) : HasOpcode (encNone o) o := by
  simp only [HasOpcode, slice, toNat_encNone]
  omega

/-! ### Decoding an encoded instruction -/

theorem decode_encT8 (v : BitVec 8) : decode (encT8 v) = decodeTrap v := by
  obtain ⟨ho, hv⟩ := slices_encT8 v
  rw [decode_of_hasOpcode_trap ho, fieldTrapvect8_of_slice hv]

/-- The dispatch sends a vector in the range of an unrecognised row to that row (43_trap.md R147). -/
theorem decodeTrap_of_wf (v : BitVec 8) :
    ∀ i ∈ [Instr.trapBad00to1F v, .trapBad26to27 v, .trapBad28to2F v, .trapBad30to3F v, .trapBad40to7F v,
      .trapBad80toFF v], i.wf = true → decodeTrap v = i := by
  revert v
  decide

theorem decode_encode (i : Instr) (hwf : i.wf = true) : decode (encode i) = i := by
  cases i with
  | addReg dr sr1 sr2 =>
    obtain ⟨ho, hmode, hdr, hsr1, hsr2⟩ := slices_encRRR .add dr sr1 sr2
    rw [encode, decode_of_hasOpcode_add_reg ho hmode, fieldR11_of_slice hdr, fieldR8_of_slice hsr1, fieldR2_of_slice hsr2]
  | andReg dr sr1 sr2 =>
    obtain ⟨ho, hmode, hdr, hsr1, hsr2⟩ := slices_encRRR .and dr sr1 sr2
    rw [encode, decode_of_hasOpcode_and_reg ho hmode, fieldR11_of_slice hdr, fieldR8_of_slice hsr1, fieldR2_of_slice hsr2]
  | addImm dr sr1 imm5 =>
    obtain ⟨ho, hmode, hdr, hsr1, himm⟩ := slices_encRRI .add dr sr1 imm5
    rw [encode, decode_of_hasOpcode_add_imm ho hmode, fieldR11_of_slice hdr, fieldR8_of_slice hsr1, fieldImm5_of_slice himm]
  | andImm dr sr1 imm5 =>
    obtain ⟨ho, hmode, hdr, hsr1, himm⟩ := slices_encRRI .and dr sr1 imm5
    rw [encode, decode_of_hasOpcode_and_imm ho hmode, fieldR11_of_slice hdr, fieldR8_of_slice hsr1, fieldImm5_of_slice himm]
  | not dr sr =>
    obtain ⟨ho, hdr, hsr⟩ := slices_encRR .not dr sr
    rw [encode, decode_of_hasOpcode_not ho, fieldR11_of_slice hdr, fieldR8_of_slice hsr]
  | br mask off =>
    obtain ⟨ho, hmask, hoff⟩ := slices_encBR .br mask off
    rw [encode, decode_of_hasOpcode_br ho, fieldCond_of_slice hmask, fieldPcoffset9_of_slice hoff]
  | jmp baseR =>
    obtain ⟨ho, hbase⟩ := slices_encB .jmp baseR
    rw [encode, decode_of_hasOpcode_jmp ho, fieldR8_of_slice hbase]
  | jsr off =>
    obtain ⟨ho, hmode, hoff⟩ := slices_encJ11 .jsr off
    rw [encode, decode_of_hasOpcode_jsr_offset ho hmode, fieldPcoffset11_of_slice hoff]
  | jsrr baseR =>
    obtain ⟨ho, hmode, hbase⟩ := slices_encJB .jsr baseR
    rw [encode, decode_of_hasOpcode_jsr_base ho hmode, fieldR8_of_slice hbase]
  | ld r off =>
    obtain ⟨ho, hr, hoff⟩ := slices_encRP9 .ld r off
    rw [encode, decode_of_hasOpcode_ld ho, fieldR11_of_slice hr, fieldPcoffset9_of_slice hoff]
  | ldi r off =>
    obtain ⟨ho, hr, hoff⟩ := slices_encRP9 .ldi r off
    rw [encode, decode_of_hasOpcode_ldi ho, fieldR11_of_slice hr, fieldPcoffset9_of_slice hoff]
  | lea r off =>
    obtain ⟨ho, hr, hoff⟩ := slices_encRP9 .lea r off
    rw [encode, decode_of_hasOpcode_lea ho, fieldR11_of_slice hr, fieldPcoffset9_of_slice hoff]
  | st r off =>
    obtain ⟨ho, hr, hoff⟩ := slices_encRP9 .st r off
    rw [encode, decode_of_hasOpcode_st ho, fieldR11_of_slice hr, fieldPcoffset9_of_slice hoff]
  | sti r off =>
    obtain ⟨ho, hr, hoff⟩ := slices_encRP9 .sti r off
    rw [encode, decode_of_hasOpcode_sti ho, fieldR11_of_slice hr, fieldPcoffset9_of_slice hoff]
  | ldr r baseR off =>
    obtain ⟨ho, hr, hbase, hoff⟩ := slices_encRB6 .ldr r baseR off
    rw [encode, decode_of_hasOpcode_ldr ho, fieldR11_of_slice hr, fieldR8_of_slice hbase, fieldOffset6_of_slice hoff]
  | str r baseR off =>
    obtain ⟨ho, hr, hbase, hoff⟩ := slices_encRB6 .str r baseR off
    rw [encode, decode_of_hasOpcode_str ho, fieldR11_of_slice hr, fieldR8_of_slice hbase, fieldOffset6_of_slice hoff]
  | trapGetchar | trapOutputchar | trapPuts | trapIn | trapPutsp | trapHalt => exact decode_encT8 _
  | trapBad00to1F v | trapBad26to27 v | trapBad28to2F v | trapBad30to3F v | trapBad40to7F v | trapBad80toFF v =>
    exact (decode_encT8 v).trans (decodeTrap_of_wf v _ (by simp) hwf)
  | rti => exact decode_of_hasOpcode_rti (hasOpcode_encNone .rti)
  | res => exact decode_of_hasOpcode_res (hasOpcode_encNone .res)

/-! ### Encoding a decoded Word -/

/-- Each bit of `e` is as the opcode table asks of the encoding of `w`: canonical where the row ignores it, else the bit of
`w` (30_encoding.md R87). -/
def KeepsReadBits (ignored canonical w e : Word) : Prop :=
  ∀ i < 16, e.getLsbD i = if ignored.getLsbD i then canonical.getLsbD i else w.getLsbD i

/-- A Word encoded back to itself, where the row ignores nothing. -/
theorem keepsReadBits_of_eq {w e : Word} (h : e = w) : KeepsReadBits 0 0 w e := fun i _ => by simp [h]

section Formats

variable {w : Word} {o : Opcode} (ho : config.opc o = fieldOpcode w)

include ho

theorem encRRI_fields (hmode : fieldImmMode w = true) : encRRI o (fieldR11 w) (fieldR8 w) (fieldImm5 w) = w := by
  have hbit : w.toNat / 32 % 2 = 1 := by simpa [fieldImmMode_eq] using hmode
  apply BitVec.eq_of_toNat_eq
  rw [toNat_encRRI, ho, toNat_fieldOpcode, val_fieldR11, val_fieldR8, toNat_fieldImm5]
  omega

theorem encBR_fields : encBR o (fieldCond w) (fieldPcoffset9 w) = w := by
  apply BitVec.eq_of_toNat_eq
  rw [toNat_encBR, ho, toNat_fieldOpcode, toNat_fieldCond, toNat_fieldPcoffset9]
  omega

theorem encJ11_fields (hmode : fieldJsrMode w = true) : encJ11 o (fieldPcoffset11 w) = w := by
  have hbit : w.toNat / 2048 % 2 = 1 := by simpa [fieldJsrMode_eq] using hmode
  apply BitVec.eq_of_toNat_eq
  rw [toNat_encJ11, ho, toNat_fieldOpcode, toNat_fieldPcoffset11]
  omega

theorem encRP9_fields : encRP9 o (fieldR11 w) (fieldPcoffset9 w) = w := by
  apply BitVec.eq_of_toNat_eq
  rw [toNat_encRP9, ho, toNat_fieldOpcode, val_fieldR11, toNat_fieldPcoffset9]
  omega

theorem encRB6_fields : encRB6 o (fieldR11 w) (fieldR8 w) (fieldOffset6 w) = w := by
  apply BitVec.eq_of_toNat_eq
  rw [toNat_encRB6, ho, toNat_fieldOpcode, val_fieldR11, val_fieldR8, toNat_fieldOffset6]
  omega

theorem keepsReadBits_encRRR (hmode : fieldImmMode w = false) :
    KeepsReadBits 0x0018 0 w (encRRR o (fieldR11 w) (fieldR8 w) (fieldR2 w)) := by
  intro i hi
  simp only [encRRR, ho, fieldOpcode, fieldR11, fieldR8, fieldR2, regBits_regOf, BitVec.getLsbD_append,
    BitVec.getLsbD_extractLsb']
  interval_cases i <;> simp
  exact hmode

theorem keepsReadBits_encRR : KeepsReadBits 0x003F 0x003F w (encRR o (fieldR11 w) (fieldR8 w)) := by
  intro i hi
  simp only [encRR, ho, fieldOpcode, fieldR11, fieldR8, regBits_regOf, BitVec.getLsbD_append, BitVec.getLsbD_extractLsb']
  interval_cases i <;> simp

theorem keepsReadBits_encB : KeepsReadBits 0x0E3F 0 w (encB o (fieldR8 w)) := by
  intro i hi
  simp only [encB, ho, fieldOpcode, fieldR8, regBits_regOf, BitVec.getLsbD_append, BitVec.getLsbD_extractLsb']
  interval_cases i <;> simp

theorem keepsReadBits_encJB (hmode : fieldJsrMode w = false) : KeepsReadBits 0x063F 0 w (encJB o (fieldR8 w)) := by
  intro i hi
  simp only [encJB, ho, fieldOpcode, fieldR8, regBits_regOf, BitVec.getLsbD_append, BitVec.getLsbD_extractLsb']
  interval_cases i <;> simp
  exact hmode

theorem keepsReadBits_encNone : KeepsReadBits 0x0FFF 0 w (encNone o) := by
  intro i hi
  simp only [encNone, ho, fieldOpcode, BitVec.getLsbD_append, BitVec.getLsbD_extractLsb']
  interval_cases i <;> simp

end Formats

theorem keepsReadBits_encT8 {w : Word} (ho : config.opc .trap = fieldOpcode w) :
    KeepsReadBits 0x0F00 0 w (encT8 (fieldTrapvect8 w)) := by
  intro i hi
  simp only [encT8, ho, fieldOpcode, fieldTrapvect8, BitVec.getLsbD_append, BitVec.getLsbD_extractLsb']
  interval_cases i <;> simp

/-- Every TRAP row encodes its vector and ignores bits 11:8. -/
theorem encode_decodeTrap (v : BitVec 8) :
    encode (decodeTrap v) = encT8 v ∧ (decodeTrap v).row.ignored = 0x0F00 ∧ (decodeTrap v).row.canonical = 0 := by
  revert v
  decide

theorem keepsReadBits_encode_decode (w : Word) :
    KeepsReadBits (decode w).row.ignored (decode w).row.canonical w (encode (decode w)) := by
  have ho := opc_opcodeOf (fieldOpcode w)
  unfold decode
  generalize opcodeOf (fieldOpcode w) = o at ho ⊢
  cases o with
  | br => exact keepsReadBits_of_eq (encBR_fields ho)
  | ld | st | ldi | sti | lea => exact keepsReadBits_of_eq (encRP9_fields ho)
  | ldr | str => exact keepsReadBits_of_eq (encRB6_fields ho)
  | add | and =>
    cases hmode : fieldImmMode w with
    | false => exact keepsReadBits_encRRR ho hmode
    | true => exact keepsReadBits_of_eq (encRRI_fields ho hmode)
  | jsr =>
    cases hmode : fieldJsrMode w with
    | false => exact keepsReadBits_encJB ho hmode
    | true => exact keepsReadBits_of_eq (encJ11_fields ho hmode)
  | not => exact keepsReadBits_encRR ho
  | jmp => exact keepsReadBits_encB ho
  | rti | res => exact keepsReadBits_encNone ho
  | trap =>
    obtain ⟨henc, hignored, hcanonical⟩ := encode_decodeTrap (fieldTrapvect8 w)
    dsimp only
    rw [henc, hignored, hcanonical]
    exact keepsReadBits_encT8 ho

/-! ### The rows of the opcode table -/

theorem TableRow.covers_iff {r : TableRow} {w : Word} : r.covers w = true ↔ w &&& r.mask = r.pattern := beq_iff_eq

/-- The thirty rows, each through one of its instructions. -/
def tableRows : List TableRow :=
  [Instr.addReg 0 0 0, .addImm 0 0 0, .andReg 0 0 0, .andImm 0 0 0, .not 0 0, .br 0 0, .jmp 0, .jsr 0, .jsrr 0, .ld 0 0,
    .ldi 0 0, .ldr 0 0 0, .lea 0 0, .st 0 0, .sti 0 0, .str 0 0 0, .trapGetchar, .trapOutputchar, .trapPuts, .trapIn,
    .trapPutsp, .trapHalt, .trapBad00to1F 0, .trapBad26to27 0, .trapBad28to2F 0, .trapBad30to3F 0, .trapBad40to7F 0,
    .trapBad80toFF 0, .rti, .res].map Instr.row

theorem row_mem_tableRows (i : Instr) : i.row ∈ tableRows := by
  cases i <;> simp [tableRows, Instr.row]

/-- No row fixes a bit it ignores. -/
theorem mask_and_ignored (i : Instr) : i.row.mask &&& i.row.ignored = 0 := by
  have hall : ∀ r ∈ tableRows, r.mask &&& r.ignored = 0 := by decide
  exact hall _ (row_mem_tableRows i)

/-- So Words that agree outside the ignored bits are of the row together. -/
theorem covers_of_agree {i : Instr} {w v : Word} (hw : i.row.covers w = true)
    (h : ∀ k < 16, i.row.ignored.getLsbD k = false → v.getLsbD k = w.getLsbD k) : i.row.covers v = true := by
  rw [TableRow.covers_iff] at hw ⊢
  rw [← hw]
  apply BitVec.eq_of_getLsbD_eq
  intro k hk
  have hdisjoint : (i.row.mask.getLsbD k && i.row.ignored.getLsbD k) = false := by
    rw [← BitVec.getLsbD_and, mask_and_ignored]
    exact BitVec.getLsbD_zero
  rw [BitVec.getLsbD_and, BitVec.getLsbD_and]
  cases hmask : i.row.mask.getLsbD k with
  | false => rw [Bool.and_false, Bool.and_false]
  | true =>
    rw [hmask, Bool.true_and] at hdisjoint
    rw [h k hk hdisjoint]

/-- The encoding of a well-formed instruction is of its row, whichever the instruction. -/
theorem row_covers_encode : ∀ i : Instr, i.wf = true → i.row.covers (encode i) = true
  | .addReg _ _ _ => Laws.RowMatch.addReg _ _ _
  | .addImm _ _ _ => Laws.RowMatch.addImm _ _ _
  | .andReg _ _ _ => Laws.RowMatch.andReg _ _ _
  | .andImm _ _ _ => Laws.RowMatch.andImm _ _ _
  | .not _ _ => Laws.RowMatch.not _ _
  | .br _ _ => Laws.RowMatch.br _ _
  | .jmp _ => Laws.RowMatch.jmp _
  | .jsr _ => Laws.RowMatch.jsr _
  | .jsrr _ => Laws.RowMatch.jsrr _
  | .ld _ _ => Laws.RowMatch.ld _ _
  | .ldi _ _ => Laws.RowMatch.ldi _ _
  | .ldr _ _ _ => Laws.RowMatch.ldr _ _ _
  | .lea _ _ => Laws.RowMatch.lea _ _
  | .st _ _ => Laws.RowMatch.st _ _
  | .sti _ _ => Laws.RowMatch.sti _ _
  | .str _ _ _ => Laws.RowMatch.str _ _ _
  | .trapGetchar => Laws.RowMatch.trapGetchar
  | .trapOutputchar => Laws.RowMatch.trapOutputchar
  | .trapPuts => Laws.RowMatch.trapPuts
  | .trapIn => Laws.RowMatch.trapIn
  | .trapPutsp => Laws.RowMatch.trapPutsp
  | .trapHalt => Laws.RowMatch.trapHalt
  | .trapBad00to1F _ => Laws.RowMatch.trapBad00to1F _
  | .trapBad26to27 _ => Laws.RowMatch.trapBad26to27 _
  | .trapBad28to2F _ => Laws.RowMatch.trapBad28to2F _
  | .trapBad30to3F _ => Laws.RowMatch.trapBad30to3F _
  | .trapBad40to7F _ => Laws.RowMatch.trapBad40to7F _
  | .trapBad80toFF _ => Laws.RowMatch.trapBad80toFF _
  | .rti => Laws.RowMatch.rti
  | .res => Laws.RowMatch.res

/-- A Word is of the row of what it decodes to: that instruction's encoding is, and differs from the Word in ignored bits
only. -/
theorem row_covers_of_decode (w : Word) : (decode w).row.covers w = true :=
  covers_of_agree (row_covers_encode _ (wf_decode w)) fun k hk hread => by
    rw [keepsReadBits_encode_decode w k hk, if_neg (by rw [hread]; decide)]

/-- Two different rows ask for different values of some bit they both fix. -/
theorem tableRows_disjoint :
    ∀ r ∈ tableRows, ∀ r' ∈ tableRows, r.pattern &&& r'.mask = r'.pattern &&& r.mask → r = r' := by decide

/-- So no Word is of two rows. -/
theorem row_eq_of_covers {i j : Instr} {w : Word} (hi : i.row.covers w = true) (hj : j.row.covers w = true) :
    i.row = j.row := by
  rw [TableRow.covers_iff] at hi hj
  apply tableRows_disjoint _ (row_mem_tableRows i) _ (row_mem_tableRows j)
  rw [← hi, ← hj, BitVec.and_assoc, BitVec.and_assoc, BitVec.and_comm i.row.mask]

end Sys2Proof

namespace Sys2Proof.Proofs

open Sys2Proof.Machine

/-- Settles O1: format by format, the slices of the encoded Word are the fields it was written from. -/
theorem decodeOfEncodeIsIdentity : Obligations.DecodeOfEncodeIsIdentity := decode_encode

/-- Settles O2: a Word is of the row of what it decodes to, and different rows share no Word. -/
theorem everyWordHasExactlyOneRow : Obligations.EveryWordHasExactlyOneRow :=
  fun w => ⟨wf_decode w, row_covers_of_decode w, fun _ hi => row_eq_of_covers hi (row_covers_of_decode w)⟩

/-- Settles O4: the encoder writes each field where the decoder cut it. -/
theorem encodeOfDecodeKeepsEveryReadBit : Obligations.EncodeOfDecodeKeepsEveryReadBit := keepsReadBits_encode_decode

/-- Settles O3: the two Words are of one row, so what they decode to is encoded alike, and encoding loses nothing. -/
theorem ignoredBitsDoNotChangeDecoding : Obligations.IgnoredBitsDoNotChangeDecoding := by
  intro w v hagree
  have hrow : (decode v).row = (decode w).row :=
    row_eq_of_covers (row_covers_of_decode v) (covers_of_agree (row_covers_of_decode w) hagree)
  have hencode : encode (decode v) = encode (decode w) := by
    apply BitVec.eq_of_getLsbD_eq
    intro k hk
    rw [keepsReadBits_encode_decode v k hk, keepsReadBits_encode_decode w k hk, hrow]
    split
    case isTrue => rfl
    case isFalse hread => exact hagree k hk (Bool.eq_false_iff.mpr hread)
  rw [← decode_encode _ (wf_decode v), hencode, decode_encode _ (wf_decode w)]

/-- Settles O5: each Word is decoded as written. -/
theorem printedWordsDecode : Obligations.PrintedWordsDecode := by
  unfold Obligations.PrintedWordsDecode
  decide

end Sys2Proof.Proofs
end

