-- ==== Sys2Proof/Proofs/RegisterAlu.lean ====
section
/-! PROOF. ADD and AND of two registers, and NOT: which Words they are and what they write (40_alu.md R110, R112, R114). -/

namespace Sys2Proof.Machine

/-! ### Results -/

theorem add_eq_ofNat (a b : Word) : a + b = BitVec.ofNat 16 ((a.toNat + b.toNat) % 65536) :=
  BitVec.eq_of_toNat_eq (by rw [BitVec.toNat_add, BitVec.toNat_ofNat, Nat.mod_mod])

theorem not_eq_ofNat (a : Word) : ~~~a = BitVec.ofNat 16 (0xFFFF - a.toNat) := by
  apply BitVec.eq_of_toNat_eq
  rw [BitVec.toNat_not, BitVec.toNat_ofNat, Nat.mod_eq_of_lt (by omega)]

/-! ### Effect -/

theorem exec_addReg (dr sr1 sr2 : RegIdx) (s : State) :
    exec (.addReg dr sr1 sr2) s = .next (s.setRegCC dr (s.reg sr1 + s.reg sr2)) := rfl

theorem exec_andReg (dr sr1 sr2 : RegIdx) (s : State) :
    exec (.andReg dr sr1 sr2) s = .next (s.setRegCC dr (s.reg sr1 &&& s.reg sr2)) := rfl

theorem exec_not (dr sr : RegIdx) (s : State) : exec (.not dr sr) s = .next (s.setRegCC dr (~~~s.reg sr)) := rfl

end Sys2Proof.Machine

namespace Sys2Proof.Proofs

open Sys2Proof.Machine

/-- Settles O11: the Word sum is the sum modulo 2^16. -/
theorem addRegisterWritesTheWrappedSum : Obligations.AddRegisterWritesTheWrappedSum := by
  intro dr sr1 sr2
  constructor
  · intro w ho hmode hdr hsr1 hsr2
    rw [decode_of_hasOpcode_add_reg ho hmode, fieldR11_of_slice hdr, fieldR8_of_slice hsr1, fieldR2_of_slice hsr2]
  · intro s
    rw [← add_eq_ofNat]
    exact ⟨_, exec_addReg dr sr1 sr2 s, s.writesResult_setRegCC dr _⟩

/-- Settles O13: the Word AND is the AND of each bit. -/
theorem andRegisterWritesTheBitwiseAnd : Obligations.AndRegisterWritesTheBitwiseAnd := by
  intro dr sr1 sr2
  constructor
  · intro w ho hmode hdr hsr1 hsr2
    rw [decode_of_hasOpcode_and_reg ho hmode, fieldR11_of_slice hdr, fieldR8_of_slice hsr1, fieldR2_of_slice hsr2]
  · intro s
    refine ⟨_, exec_andReg dr sr1 sr2 s, ?_, fun i _ => ?_⟩
    · rw [State.reg_setRegCC_same]
      exact s.writesResult_setRegCC dr _
    · rw [State.reg_setRegCC_same, BitVec.getLsbD_and]

/-- Settles O15: the complement is what is missing to 0xFFFF. -/
theorem notWritesTheComplement : Obligations.NotWritesTheComplement := by
  intro dr sr
  constructor
  · intro w ho hdr hsr
    rw [decode_of_hasOpcode_not ho, fieldR11_of_slice hdr, fieldR8_of_slice hsr]
  · intro s
    rw [← not_eq_ofNat]
    exact ⟨_, exec_not dr sr s, s.writesResult_setRegCC dr _⟩

end Sys2Proof.Proofs
end

