-- ==== Sys2Proof/Proofs/Branch.lean ====
section
/-! PROOF. BR, JMP, JSRR: which Words they are and where they go (41_control.md R120, R121, R123). -/

namespace Sys2Proof.Machine

open Sys2Proof.Claims

/-! ### BR's test -/

/-- The test on Words is the test on their numbers. -/
theorem State.condMet_iff (s : State) (mask : BitVec 3) :
    s.condMet mask = true ↔ mask.toNat &&& s.cond.toNat ≠ 0 := by
  have hnum : (mask.setWidth 16 &&& s.cond).toNat = mask.toNat &&& s.cond.toNat := by
    rw [BitVec.toNat_and, BitVec.toNat_setWidth, Nat.mod_eq_of_lt (by omega)]
  rw [condMet, bne_iff_ne, ← hnum]
  exact not_congr ⟨fun h => by rw [h]; rfl, fun h => BitVec.eq_of_toNat_eq h⟩

/-- Each bit of the mask meets one flag Word (10_state.md R24). -/
theorem mask_and_flag (mask : BitVec 3) :
    (mask.toNat &&& config.flNeg.toNat ≠ 0 ↔ mask.getLsbD 2 = true) ∧
      (mask.toNat &&& config.flZro.toNat ≠ 0 ↔ mask.getLsbD 1 = true) ∧
      (mask.toNat &&& config.flPos.toNat ≠ 0 ↔ mask.getLsbD 0 = true) := by
  revert mask
  decide

theorem State.condLegal_iff (s : State) :
    s.condLegal = true ↔ s.cond = config.flPos ∨ s.cond = config.flZro ∨ s.cond = config.flNeg := by
  simp [condLegal, or_assoc]

/-- So the mask 0b111 meets each of them. -/
theorem State.full_mask_and_cond {s : State} (h : s.condLegal = true) : (0b111 : BitVec 3).toNat &&& s.cond.toNat ≠ 0 := by
  obtain h | h | h := s.condLegal_iff.mp h <;> rw [h] <;> decide

/-! ### Effect -/

/-- A jump changes pc and nothing else (41_control.md R124). -/
theorem State.onlyControl_setPc (s : State) (v : Word) : OnlyControl s (s.setPc v) [] :=
  ⟨fun j _ => s.reg_setPc j v, rfl, fun _ => rfl, rfl, rfl, rfl, rfl, rfl, rfl⟩

/-- A branch not taken goes to the pc it has. -/
theorem exec_br (mask : BitVec 3) (off : BitVec 9) (s : State) :
    exec (.br mask off) s = .next (s.setPc (if mask.toNat &&& s.cond.toNat ≠ 0 then s.pcRel9 off else s.pc)) := by
  have hexec : exec (.br mask off) s = .next (if s.condMet mask then s.setPc (s.pcRel9 off) else s) := rfl
  rw [hexec, apply_ite s.setPc]
  simp only [s.condMet_iff]
  rfl

theorem exec_jmp (baseR : RegIdx) (s : State) : exec (.jmp baseR) s = .next (s.setPc (s.reg baseR)) := rfl

theorem exec_jsrr (baseR : RegIdx) (s : State) :
    exec (.jsrr baseR) s = .next (s.link.setPc (s.link.reg baseR)) := rfl

end Sys2Proof.Machine

namespace Sys2Proof.Proofs

open Sys2Proof.Machine

/-- Settles O16: the branch is a jump to the target or to the pc it has, and the three flag Words are the mask's bits. -/
theorem branchTestsTheSelectedFlag : Obligations.BranchTestsTheSelectedFlag := by
  intro mask off
  constructor
  · intro w ho hmask hoff
    rw [decode_of_hasOpcode_br ho, fieldCond_of_slice hmask, fieldPcoffset9_of_slice hoff]
  · intro s
    obtain ⟨hneg, hzro, hpos⟩ := mask_and_flag mask
    rw [← s.pcRel9_eq_ofInt off]
    refine ⟨_, exec_br mask off s, s.onlyControl_setPc _, ?_⟩
    rw [State.setPc_pc]
    refine ⟨rfl, ?_, ?_, ?_, ?_, ?_⟩
    · rintro rfl
      exact if_neg fun h => h (Nat.zero_and _)
    · rintro rfl hlegal
      exact if_pos (State.full_mask_and_cond hlegal)
    · intro h
      simp only [h, hneg]
    · intro h
      simp only [h, hzro]
    · intro h
      simp only [h, hpos]

/-- Settles O17: JMP sets pc from the base register. -/
theorem jumpGoesToTheBaseRegister : Obligations.JumpGoesToTheBaseRegister := by
  intro baseR
  constructor
  · intro w ho hbase
    rw [decode_of_hasOpcode_jmp ho, fieldR8_of_slice hbase]
  · intro s
    exact ⟨_, exec_jmp baseR s, rfl, s.onlyControl_setPc _⟩

/-- Settles O19: the base is read after the link write, which changes x[7] only. -/
theorem jsrrReadsTheBaseAfterTheLink : Obligations.JsrrReadsTheBaseAfterTheLink := by
  intro baseR
  constructor
  · intro w ho hmode hbase
    rw [decode_of_hasOpcode_jsr_base ho hmode, fieldR8_of_slice hbase]
  · intro s
    exact ⟨_, exec_jsrr baseR s, s.reg_link_linkReg, s.reg_link baseR, s.onlyControl_link_setPc _⟩

end Sys2Proof.Proofs
end

