-- ==== Sys2Proof/Proofs/Console.lean ====
section
/-! PROOF. MemRead, MemWrite and InReady(), at every address and for every contents of the input (20_memory.md R52 to R55,
10_state.md R29, R30). -/

namespace Sys2Proof.Machine

open Sys2Proof.Claims

variable (s : State)

/-- A listed answer is the one given, while a byte is pending. -/
theorem State.inReady_plan {s : State} (h : s.inq ≠ []) (answer : Bool) (feed : Option Byte) :
    (s.plan [{ arrived := [], ready := answer }] feed).inReady.1 = answer := by
  rw [(s.plan _ feed).inReady_of_polls rfl h]

/-- A poll by itself touches no more than the record of answers. -/
theorem State.inReady_frame : { s.inReady.2 with polls := s.polls, draws := s.draws } = s := by
  unfold inReady
  split <;> rfl

/-- An arrival touches no more than the queue and the list it comes from. -/
theorem State.arrive_frame : { s.arrive with inq := s.inq, polls := s.polls } = s := by
  unfold arrive
  split <;> rfl

/-- A zero-extended byte, as a number (00_scope.md R8). -/
theorem setWidth_eq_ofNat (b : Byte) : b.setWidth 16 = BitVec.ofNat 16 b.toNat := (BitVec.ofNat_toNat 16 b).symm

/-- A ready poll, in the order in which the statements name the two console cells. -/
theorem State.poll_ready_cells (hm : s.mem.wf = true) (h : s.arrive.inReady.1 = true) :
    ∃ byte rest, s.inq ++ s.arriving = byte :: rest ∧ s.poll.inq = rest ∧
      ∀ a, s.poll.mem.cell a =
        if a = config.kbsrAddr then 0x8000
        else if a = config.kbdrAddr then BitVec.ofNat 16 byte.toNat else s.mem.cell a := by
  obtain ⟨byte, rest, harrived, hinq, hcell⟩ := s.poll_ready_spec hm h
  refine ⟨byte, rest, harrived, hinq, fun a => ?_⟩
  rw [hcell, setWidth_eq_ofNat]
  by_cases ha : a = config.kbsrAddr
  · rw [if_pos ha, if_pos ha, if_neg (ha ▸ kbdrAddr_ne_kbsrAddr.symm)]
  · rw [if_neg ha, if_neg ha]

/-- No read changes registers, flags, pc, run state, output or feed. -/
theorem State.memRead_frame (a : Word) :
    OnlyControl { (s.memRead a).2 with mem := s.mem, inq := s.inq, polls := s.polls, draws := s.draws } s [] :=
  ⟨fun j _ => (s.memRead_reg a j).symm, (s.memRead_cond a).symm, fun _ => rfl, (s.memRead_run a).symm,
    (s.memRead_out a).symm, rfl, rfl, (s.memRead_feed a).symm, rfl⟩

end Sys2Proof.Machine

namespace Sys2Proof.Proofs

open Sys2Proof.Machine

/-- Settles O8: away from the status register a read is plain, and there it is one poll. -/
theorem memReadAtEveryAddress : Obligations.MemReadAtEveryAddress := by
  intro s a hm
  refine ⟨s.memRead_plain, ?_, ?_, s.memRead_frame a, s.memRead_pc a⟩
  · rintro rfl hnot
    obtain ⟨hcell, hinq⟩ := s.poll_not_ready_spec hm hnot
    rw [s.memRead_status_fst hm, hnot, State.memRead_status]
    exact ⟨rfl, hinq, hcell⟩
  · rintro rfl hready
    obtain ⟨byte, rest, harrived, hinq, hcell⟩ := s.poll_ready_cells hm hready
    rw [s.memRead_status_fst hm, hready, State.memRead_status]
    exact ⟨byte, rest, harrived, rfl, hinq, hcell⟩

/-- Settles O9: a store into canonical memory changes the one cell and keeps memory canonical. -/
theorem memWriteIsPlainStorage : Obligations.MemWriteIsPlainStorage :=
  fun _ a v hm => ⟨Memory.cell_store hm a v, Memory.wf_store hm a v, rfl⟩

/-- Settles O10: true only with a byte pending, and then as the environment lists it. -/
theorem inReadyIsAConstrainedDraw : Obligations.InReadyIsAConstrainedDraw :=
  fun s => ⟨s.inq_ne_nil_of_inReady, fun h answer => State.inReady_plan h answer s.feed, s.inReady_frame, s.arrive_inq,
    s.arrive_frame⟩

end Sys2Proof.Proofs
end

