-- ==== Sys2Proof/Proofs/Trap.lean ====
section
/-! PROOF. The dispatch of TRAP, its routines but the string scans, and the two reserved opcodes (43_trap.md R140 to R147,
44_reserved.md R150, R151). -/

namespace Sys2Proof.Machine

open Sys2Proof.Claims

/-! ### Selection -/

/-- A vector outside 0x20 to 0x25 selects a routine that raises it (R147). -/
theorem raises_decodeTrap (v : BitVec 8) (h : v.toNat < 0x20 ∨ 0x25 < v.toNat) :
    raises (decodeTrap v) = some (.fatalTrapVector v) := by
  revert v
  decide

theorem fieldTrapvect8_eq_ofNat_slice (w : Word) : fieldTrapvect8 w = BitVec.ofNat 8 (slice w 7 0) := by
  rw [← toNat_fieldTrapvect8_eq_slice, BitVec.ofNat_toNat, BitVec.setWidth_eq]

/-! ### What a routine does after the link -/

section Routines

variable {s u : State} {written : List RegIdx} {bytes : List Byte}

/-- The link write names x[7] only (10_state.md R21). -/
theorem State.sameRegsBut_link (s : State) : SameRegsBut s s.link [7] := fun j hj =>
  (s.reg_link j).trans (if_neg (List.ne_of_not_mem_cons hj))

/-- The delivery of a byte names x[0] beside it. -/
theorem sameRegsBut_deliver (h : SameRegsBut s u [7]) (b : Byte) : SameRegsBut s (u.deliver b) [7, 0] := fun j hj => by
  obtain ⟨hlinkReg, hrest⟩ := List.ne_and_not_mem_of_not_mem_cons hj
  exact ((u.reg_setRegCC trapReg j _).trans (if_neg (List.ne_of_not_mem_cons hrest))).trans (h j (by simpa using hlinkReg))

/-- Every routine starts from here (R140). -/
theorem State.trapEffect_link (s : State) : TrapEffect s s.link [] [] :=
  ⟨s.reg_link_linkReg, s.sameRegsBut_link, rfl, fun _ => rfl, (List.append_nil _).symm⟩

/-- Output is appended. -/
theorem trapEffect_outBytes (h : TrapEffect s u written bytes) (more : List Byte) :
    TrapEffect s (u.outBytes more) written (bytes ++ more) := by
  obtain ⟨hlink, hregs, hpc, hcells, hout⟩ := h
  exact ⟨hlink, hregs, hpc, hcells, by rw [State.outBytes_out, hout, List.append_assoc]⟩

/-- A byte delivered to x[0] leaves the link in x[7]. -/
theorem trapEffect_deliver (h : TrapEffect s u [] bytes) (b : Byte) : TrapEffect s (u.deliver b) [0] bytes := by
  obtain ⟨hlink, hregs, hpc, hcells, hout⟩ := h
  exact ⟨((u.reg_setRegCC trapReg 7 _).trans (if_neg (by decide))).trans hlink, sameRegsBut_deliver hregs b, hpc, hcells,
    hout⟩

end Routines

/-- What GETCHAR and IN leave in x[0] and the flags: the byte zero-extended, which is never NEGATIVE. -/
theorem State.deliver_result (u : State) (b : Byte) :
    (u.deliver b).reg 0 = BitVec.ofNat 16 b.toNat ∧ FlagsOf ((u.deliver b).reg 0) (u.deliver b).cond ∧
      (u.deliver b).cond ≠ config.flNeg := by
  refine ⟨(u.reg_setRegCC_same trapReg _).trans (setWidth_eq_ofNat b), u.flagsOf_setRegCC trapReg _, ?_⟩
  rw [deliver, setRegCC_cond]
  by_cases h : zext8 b = 0x0000
  · rw [flagOf_of_zero h]
    decide
  · rw [flagOf_of_pos h (getLsbD_15_zext8 b)]
    decide

/-- The low byte is cut where the vector is. -/
theorem lowByte_eq_slice (w : Word) : lowByte w = BitVec.ofNat 8 (slice w 7 0) := fieldTrapvect8_eq_ofNat_slice w

/-- The link write leaves x[0] alone. -/
theorem State.reg_link_trapReg (s : State) : s.link.reg trapReg = s.reg trapReg :=
  (s.reg_link trapReg).trans (if_neg (by decide))

/-! ### The routines -/

theorem exec_trapGetchar_of_cons {s : State} {b : Byte} {rest : List Byte} (h : s.inq = b :: rest) :
    exec .trapGetchar s = .next (({ s.link with inq := rest } : State).deliver b) := execTrapGetchar_of_cons h

theorem exec_trapGetchar_of_nil {s : State} (h : s.inq = []) :
    exec .trapGetchar s = .fault (.blockedOnInput s.out) := execTrapGetchar_of_nil h

theorem exec_trapIn_of_cons {s : State} {b : Byte} {rest : List Byte} (h : s.inq = b :: rest) :
    exec .trapIn s =
      .next (((({ s.link.outBytes config.inPrompt with inq := rest } : State).outByte b)).deliver b) :=
  execTrapIn_of_cons h

theorem exec_trapIn_of_nil {s : State} (h : s.inq = []) :
    exec .trapIn s = .fault (.blockedOnInput (s.out ++ config.inPrompt)) := execTrapIn_of_nil h

theorem exec_trapOutputchar (s : State) :
    exec .trapOutputchar s = .next (s.link.outBytes [lowByte (s.reg trapReg)]) := by
  rw [← s.reg_link_trapReg]
  rfl

theorem exec_trapHalt (s : State) : exec .trapHalt s = .next (s.link.outBytes config.haltNotice).halt := rfl

theorem exec_rti (s : State) : exec .rti s = .next (s.raise (.fatalOpcode .rti)) := rfl

theorem exec_res (s : State) : exec .res s = .next (s.raise (.fatalOpcode .res)) := rfl

/-- The six rows of unrecognised vectors have one meaning (R147). -/
theorem exec_trapBad (s : State) (v : BitVec 8) :
    ∀ i ∈ [Instr.trapBad00to1F v, .trapBad26to27 v, .trapBad28to2F v, .trapBad30to3F v, .trapBad40to7F v,
      .trapBad80toFF v], exec i s = .next (s.link.raise (.fatalTrapVector v)) := by
  intro i hi
  simp only [List.mem_cons, List.not_mem_nil, or_false] at hi
  rcases hi with rfl | rfl | rfl | rfl | rfl | rfl <;> rfl

/-- Raising a condition changes the run state and nothing else (60_exceptions.md R182). -/
theorem State.onlyControl_raise (s : State) (cause : FatalCause) :
    OnlyControl s { s.raise cause with run := s.run } [] :=
  ⟨fun _ _ => rfl, rfl, fun _ => rfl, rfl, rfl, rfl, rfl, rfl, rfl⟩

end Sys2Proof.Machine

namespace Sys2Proof.Proofs

open Sys2Proof.Machine Sys2Proof.Claims

/-- Settles O27: TRAP dispatches on its low byte, and the dispatch is total. -/
theorem trapVectorSelectsTheRoutine : Obligations.TrapVectorSelectsTheRoutine := by
  intro w ho
  have hselect : ∀ v : BitVec 8, slice w 7 0 = v.toNat → decode w = decodeTrap v := fun v hv => by
    rw [decode_of_hasOpcode_trap ho, fieldTrapvect8_of_slice hv]
  refine ⟨hselect 0x20, hselect 0x21, hselect 0x22, hselect 0x23, hselect 0x24, hselect 0x25, fun hbad => ?_⟩
  rw [decode_of_hasOpcode_trap ho, ← fieldTrapvect8_eq_ofNat_slice]
  exact raises_decodeTrap _ (toNat_fieldTrapvect8_eq_slice ▸ hbad)

/-- Settles O28: GETCHAR links, takes the oldest byte and delivers it. -/
theorem getcharDeliversTheOldestByte : Obligations.GetcharDeliversTheOldestByte := by
  intro s b rest hinq
  have hlinked : TrapEffect s { s.link with inq := rest } [] [] := s.trapEffect_link
  obtain ⟨hreg, hflags, hneg⟩ := State.deliver_result { s.link with inq := rest } b
  exact ⟨_, exec_trapGetchar_of_cons hinq, trapEffect_deliver hlinked b, hreg, hflags, hneg, rfl, rfl, rfl, rfl, rfl⟩

/-- Settles O29: the link write leaves x[0] alone, and its low byte is appended. -/
theorem outputcharWritesTheLowByte : Obligations.OutputcharWritesTheLowByte := by
  intro s
  rw [← lowByte_eq_slice]
  exact ⟨_, exec_trapOutputchar s, trapEffect_outBytes s.trapEffect_link _, rfl, rfl, rfl, rfl, rfl, rfl⟩

/-- Settles O32: IN is the link, the prompt, the byte taken, its echo and its delivery. -/
theorem inPromptsReadsAndEchoes : Obligations.InPromptsReadsAndEchoes := by
  intro s b rest hinq
  have hprompt : TrapEffect s { s.link.outBytes config.inPrompt with inq := rest } [] config.inPrompt :=
    trapEffect_outBytes s.trapEffect_link config.inPrompt
  obtain ⟨hreg, hflags, -⟩ := State.deliver_result (State.outByte { s.link.outBytes config.inPrompt with inq := rest } b) b
  exact ⟨_, exec_trapIn_of_cons hinq, trapEffect_deliver (trapEffect_outBytes hprompt [b]) b, hreg, hflags, rfl, rfl, rfl,
    rfl, rfl⟩

/-- Settles O33: each of the two takes the oldest byte, or waits when there is none; received bytes are pending. -/
theorem inputTrapsWaitExactlyForInput : Obligations.InputTrapsWaitExactlyForInput := by
  intro s
  refine ⟨⟨fun h => ?_, exec_trapGetchar_of_nil⟩, ⟨fun h => ?_, exec_trapIn_of_nil⟩, fun bytes hbytes => ?_⟩
  · cases hinq : s.inq with
    | nil => rfl
    | cons b rest => rw [exec_trapGetchar_of_cons hinq] at h; cases h
  · cases hinq : s.inq with
    | nil => rfl
    | cons b rest => rw [exec_trapIn_of_cons hinq] at h; cases h
  · obtain ⟨b, rest, hinq⟩ := List.exists_cons_of_ne_nil (List.append_ne_nil_of_right_ne_nil s.inq hbytes)
    exact ⟨⟨_, exec_trapGetchar_of_cons (s := s.receive bytes) hinq⟩, _, exec_trapIn_of_cons (s := s.receive bytes) hinq⟩

/-- Settles O34: HALT links, writes its notice and ends the run. -/
theorem haltEndsTheRun : Obligations.HaltEndsTheRun :=
  fun s => ⟨_, exec_trapHalt s, trapEffect_outBytes s.trapEffect_link _, rfl, rfl, rfl, rfl, rfl, rfl⟩

/-- Settles O35: each of the six rows links and raises. -/
theorem unrecognisedVectorIsFatal : Obligations.UnrecognisedVectorIsFatal :=
  fun s v i hi => ⟨_, exec_trapBad s v i hi, s.trapEffect_link, rfl, rfl, rfl, rfl, rfl, rfl⟩

/-- Settles O36: the opcode alone selects RTI and RES, and each raises its own cause. -/
theorem rtiAndResAreFatal : Obligations.RtiAndResAreFatal :=
  ⟨fun _ => ⟨decode_of_hasOpcode_rti, decode_of_hasOpcode_res⟩, fun s =>
    ⟨⟨_, exec_rti s, rfl, rfl, s.onlyControl_raise _⟩, _, exec_res s, rfl, rfl, s.onlyControl_raise _⟩⟩

end Sys2Proof.Proofs
end

