-- ==== Sys2Proof/Proofs/StringScan.lean ====
section
/-! PROOF. PUTS and PUTSP: the loop of 43_trap.md R143 and R145, as a relation over MemRead with no bound on reads, is what the
scan computes. That the scan's bound stops no loop that ends is Laws/Scan.lean's. -/

namespace Sys2Proof.Machine

open Sys2Proof.Claims

/-! ### The bytes of a Word -/

theorem highByte_eq_slice (w : Word) : highByte w = BitVec.ofNat 8 (slice w 15 8) := by
  apply BitVec.eq_of_toNat_eq
  rw [highByte_eq, slice, BitVec.toNat_ofNat, BitVec.toNat_ofNat]
  omega

theorem highByte_eq_zero_iff (w : Word) : highByte w = 0x00 ↔ slice w 15 8 = 0 := by
  rw [← BitVec.toNat_inj, highByte, toNat_extract]
  rfl

theorem putsBytes_eq_putsOut : putsBytes = putsOut := funext fun w => by rw [putsBytes, putsOut, lowByte_eq_slice]

theorem putspBytes_eq_putspOut : putspBytes = putspOut := funext fun w => by
  simp only [putspBytes, putspOut, highByte_eq_zero_iff]
  rw [lowByte_eq_slice, highByte_eq_slice]

/-! ### The loop and the scan -/

section

variable {bytesOf : Word → List Byte} {s t : State} {a : Word}

/-- A loop that ends does so after some number of reads. -/
theorem writeString_of_stringLoop (h : StringLoop bytesOf a s t) : ∃ n, s.writeString bytesOf n a = some t := by
  induction h with
  | @stop a s hzero => exact ⟨1, s.writeString_stop bytesOf hzero⟩
  | @more a s t hword _ ih =>
    obtain ⟨n, hn⟩ := ih
    exact ⟨n + 1, (s.writeString_next bytesOf hword).trans hn⟩

/-- What a number of reads ends in, the loop ends in. -/
theorem stringLoop_of_writeString {n : Nat} (h : s.writeString bytesOf n a = some t) : StringLoop bytesOf a s t := by
  induction n generalizing s a with
  | zero => cases h
  | succ n ih =>
    by_cases hword : (s.memRead a).1 = 0x0000
    · rw [s.writeString_stop bytesOf hword] at h
      exact Option.some.inj h ▸ .stop hword
    · rw [s.writeString_next bytesOf hword] at h
      exact .more hword (ih h)

theorem stringLoop_iff : StringLoop bytesOf a s t ↔ ∃ n, s.writeString bytesOf n a = some t :=
  ⟨writeString_of_stringLoop, fun ⟨_, h⟩ => stringLoop_of_writeString h⟩

/-! ### The two routines -/

/-- The routine after its link, for both ways to write a Word. -/
def State.scanTrap (s : State) (bytesOf : Word → List Byte) : Result := s.link.putString bytesOf

theorem exec_trapPuts (s : State) : exec .trapPuts s = s.scanTrap putsOut := by
  rw [← putsBytes_eq_putsOut]
  rfl

theorem exec_trapPutsp (s : State) : exec .trapPutsp s = s.scanTrap putspOut := by
  rw [← putspBytes_eq_putspOut]
  rfl

/-- Its next state is the one the loop from x[0] ends in, with x[7] linked. -/
theorem scanTrap_next_iff (hm : s.mem.wf = true) :
    s.scanTrap bytesOf = .next t ↔ StringLoop bytesOf (s.reg 0) (s.setReg 7 s.pc) t := by
  rw [State.scanTrap, putString_next_iff (s := s.link) hm, s.reg_link_trapReg]
  exact stringLoop_iff.symm

/-- It hangs when the loop ends in no state. -/
theorem scanTrap_hangs_iff (hm : s.mem.wf = true) :
    s.scanTrap bytesOf = .fault .stringNeverEnds ↔ ¬ ∃ t, StringLoop bytesOf (s.reg 0) (s.setReg 7 s.pc) t := by
  rw [State.scanTrap, putString_hangs_iff (s := s.link) hm, s.reg_link_trapReg]
  constructor
  · rintro hnone ⟨t, ht⟩
    obtain ⟨n, hn⟩ := stringLoop_iff.mp ht
    exact Option.some_ne_none t (hn.symm.trans (hnone n))
  · intro hno n
    exact Option.eq_none_iff_forall_ne_some.mpr fun t ht => hno ⟨t, stringLoop_iff.mpr ⟨n, ht⟩⟩

/-- It writes no register but x[7], and leaves flags, pc and run state alone. -/
theorem scanTrap_frame (h : s.scanTrap bytesOf = .next t) :
    t.reg 7 = s.pc ∧ SameRegsBut s t [7] ∧ t.cond = s.cond ∧ t.pc = s.pc ∧ t.run = s.run := by
  obtain ⟨hregs, hcond, hpc, hrun⟩ := writeString_frame (putString_next h)
  exact ⟨(hregs 7).trans s.reg_link_linkReg, fun j hj => (hregs j).trans (s.sameRegsBut_link j hj), hcond, hpc, hrun⟩

/-- It completes when the environment does not feed without end. -/
theorem scanTrap_completes (bytesOf : Word → List Byte) (hm : s.mem.wf = true) (hf : s.feed = none) :
    ∃ t, s.scanTrap bytesOf = .next t := by
  obtain ⟨t, -, ht⟩ := s.link.putString_completes bytesOf hm hf
  exact ⟨t, ht⟩

/-- Over a string of k Words that does not reach the status register it writes their bytes and nothing else. -/
theorem scanTrap_plain (bytesOf : Word → List Byte) {k : Nat} (hk : k < 65536)
    (hplain : ∀ i ≤ k, s.reg 0 + BitVec.ofNat 16 i ≠ config.kbsrAddr)
    (hword : ∀ i < k, s.mem.cell (s.reg 0 + BitVec.ofNat 16 i) ≠ 0x0000)
    (hzero : s.mem.cell (s.reg 0 + BitVec.ofNat 16 k) = 0x0000) :
    s.scanTrap bytesOf = .next
      (s.link.outBytes ((List.range k).flatMap fun i => bytesOf (s.mem.cell (s.reg 0 + BitVec.ofNat 16 i)))) := by
  have hfuel : k < s.link.scanFuel := by
    unfold State.scanFuel
    omega
  have hscan : s.link.writeString bytesOf s.link.scanFuel (s.reg trapReg) =
      some (s.link.outBytes ((List.range k).flatMap fun i => bytesOf (s.mem.cell (s.reg 0 + BitVec.ofNat 16 i)))) :=
    s.link.writeString_plain bytesOf hfuel hplain hword hzero
  rw [State.scanTrap, State.putString, s.reg_link_trapReg, hscan]

/-- It hangs under an endless feed over memory with no zero Word, since every read is then other than zero. -/
theorem scanTrap_hangs_of_endless (bytesOf : Word → List Byte) (h : State.Endless s.link) :
    s.scanTrap bytesOf = .fault .stringNeverEnds :=
  (putString_hangs_iff h.wf).mpr fun n => h.going n _

end

end Sys2Proof.Machine

namespace Sys2Proof.Proofs

open Sys2Proof.Machine

/-- Settles O30: the scan after the link is the loop from x[0]. -/
theorem putsAndPutspRunTheStringLoop : Obligations.PutsAndPutspRunTheStringLoop := by
  intro s hm
  rw [exec_trapPuts, exec_trapPutsp]
  exact ⟨fun _ => scanTrap_next_iff hm, fun _ => scanTrap_next_iff hm, fun _ h => h.elim scanTrap_frame scanTrap_frame,
    fun hf => ⟨scanTrap_completes _ hm hf, scanTrap_completes _ hm hf⟩⟩

/-- Settles O31: no read of such a string polls, so the state the scan ends in is the linked one with the bytes appended. -/
theorem putsAndPutspWriteTheString : Obligations.PutsAndPutspWriteTheString := by
  intro s k hk hplain hword hzero
  rw [exec_trapPuts, exec_trapPutsp]
  exact ⟨⟨_, scanTrap_plain _ hk hplain hword hzero, trapEffect_outBytes s.trapEffect_link _, rfl, rfl, rfl, rfl, rfl, rfl⟩,
    _, scanTrap_plain _ hk hplain hword hzero, trapEffect_outBytes s.trapEffect_link _, rfl, rfl, rfl, rfl, rfl, rfl⟩

/-- Settles O54: a scan that does not end is a loop that does not end, and the link keeps the endless environment. -/
theorem putsAndPutspHangExactlyWhenTheLoopNeverEnds : Obligations.PutsAndPutspHangExactlyWhenTheLoopNeverEnds := by
  intro s hm
  rw [exec_trapPuts, exec_trapPutsp]
  refine ⟨scanTrap_hangs_iff hm, scanTrap_hangs_iff hm, fun hpolls hfeed hinq hcells => ?_⟩
  have hendless : State.Endless s.link := ⟨hm, hpolls, hfeed, hinq, hcells⟩
  exact ⟨scanTrap_hangs_of_endless _ hendless, scanTrap_hangs_of_endless _ hendless⟩

end Sys2Proof.Proofs
end

