-- ==== Sys2Proof/Proofs/OperationClosure.lean ====
section
/-! PROOF. The case split over the thirty instructions for what every operation of the machine keeps, made once: a property of
states kept by each operation is kept by every instruction and by every step. -/

namespace Sys2Proof.Machine

open Sys2Proof.Claims

/-- Every operation the instructions are made of keeps `P`; only a legal cause is raised. -/
structure KeptByOperations (P : State → Prop) : Prop where
  memRead : ∀ u a, P u → P (State.memRead u a).2
  memWrite : ∀ u a v, P u → P (State.memWrite u a v)
  setRegCC : ∀ u r v, P u → P (State.setRegCC u r v)
  setPc : ∀ u v, P u → P (State.setPc u v)
  link : ∀ u, P u → P (State.link u)
  outBytes : ∀ u bytes, P u → P (State.outBytes u bytes)
  takeByte : ∀ u b rest, u.inq = b :: rest → P u → P { u with inq := rest }
  halt : ∀ u, P u → P (State.halt u)
  raise : ∀ u cause, (State.raise u cause).runLegal = true → P u → P (State.raise u cause)

variable {P : State → Prop} {i : Instr} {s t : State}

/-- What a well-formed instruction raises is legal: the vector is outside 0x20 to 0x25 (10_state.md R28). -/
theorem runLegal_raise {cause : FatalCause} (hwf : i.wf = true) (hr : raises i = some cause) (u : State) :
    (u.raise cause).runLegal = true := by
  cases i with
  | rti | res =>
    cases hr
    rfl
  | trapBad00to1F v | trapBad26to27 v | trapBad28to2F v | trapBad30to3F v | trapBad40to7F v | trapBad80toFF v =>
    cases hr
    simp only [Instr.wf, vectorIn, Bool.and_eq_true, decide_eq_true_eq] at hwf
    simp only [State.runLegal, State.raise_run, Bool.or_eq_true, decide_eq_true_eq]
    omega
  | _ => cases hr

/-- So every well-formed instruction keeps it. -/
theorem KeptByOperations.exec (hP : KeptByOperations P) (hwf : i.wf = true) (hs : P s) (h : exec i s = .next t) : P t := by
  cases i with
  | addReg | addImm | andReg | andImm | not | lea =>
    rw [eq_of_next_eq h]
    exact hP.setRegCC _ _ _ hs
  | ld | ldr =>
    rw [eq_of_next_eq h]
    exact hP.setRegCC _ _ _ (hP.memRead _ _ hs)
  | ldi dr off =>
    rw [eq_of_next_eq ((exec_ldi dr off s).symm.trans h)]
    exact hP.setRegCC _ _ _ (hP.memRead _ _ (hP.memRead _ _ hs))
  | st | str =>
    rw [eq_of_next_eq h]
    exact hP.memWrite _ _ _ hs
  | sti sr off =>
    rw [eq_of_next_eq ((exec_sti sr off s).symm.trans h)]
    exact hP.memWrite _ _ _ (hP.memRead _ _ hs)
  | br mask off =>
    rw [eq_of_next_eq ((exec_br mask off s).symm.trans h)]
    exact hP.setPc _ _ hs
  | jmp =>
    rw [eq_of_next_eq h]
    exact hP.setPc _ _ hs
  | jsr | jsrr =>
    rw [eq_of_next_eq h]
    exact hP.setPc _ _ (hP.link _ hs)
  | trapGetchar =>
    obtain ⟨b, rest, hinq, rfl⟩ := execTrapGetchar_next h
    exact hP.setRegCC _ _ _ (hP.takeByte s.link b rest hinq (hP.link _ hs))
  | trapIn =>
    obtain ⟨b, rest, hinq, rfl⟩ := execTrapIn_next h
    exact hP.setRegCC _ _ _ (hP.outBytes _ [b]
      (hP.takeByte (s.link.outBytes config.inPrompt) b rest hinq (hP.outBytes _ _ (hP.link _ hs))))
  | trapOutputchar =>
    rw [eq_of_next_eq h]
    exact hP.outBytes _ [_] (hP.link _ hs)
  | trapPuts | trapPutsp => exact s.link.writeString_keeps _ hP.memRead hP.outBytes (hP.link _ hs) (putString_next h)
  | trapHalt =>
    rw [eq_of_next_eq h]
    exact hP.halt _ (hP.outBytes _ _ (hP.link _ hs))
  | trapBad00to1F | trapBad26to27 | trapBad28to2F | trapBad30to3F | trapBad40to7F | trapBad80toFF =>
    rw [eq_of_next_eq h]
    exact hP.raise _ _ (runLegal_raise hwf rfl _) (hP.link _ hs)
  | rti | res =>
    rw [eq_of_next_eq h]
    exact hP.raise _ _ rfl hs

/-- And so does every step: a read, the increment of pc, and a decoded instruction, which is well-formed. -/
theorem KeptByOperations.step (hP : KeptByOperations P) (hs : P s) (h : step s = .next t) : P t := by
  obtain ⟨-, hexec⟩ := step_next h
  rw [fetch_snd] at hexec
  exact hP.exec (wf_decode _) (hP.setPc _ _ (hP.memRead _ _ hs)) hexec

end Sys2Proof.Machine
end

