-- ==== Sys2Proof/Proofs/ExecFrames.lean ====
section
/-! PROOF. What an instruction leaves alone, over all thirty of them: registers, cells, the run state, the console,
and input it does not draw on (10_state.md R21, R28, R29; 20_memory.md R57; 45_execution_loop.md R161). -/

namespace Sys2Proof.Machine

open Sys2Proof.Claims

variable {i : Instr} {s t : State}

/-! ### Registers (10_state.md R21) -/

/-- A register write that starts from the registers of `s`. -/
theorem sameRegsBut_setRegCC {u : State} (hu : ∀ j, u.reg j = s.reg j) (dr : RegIdx) (v : Word) :
    SameRegsBut s (u.setRegCC dr v) [dr] := fun j hj => by
  rw [State.reg_setRegCC, if_neg (List.ne_of_not_mem_cons hj), hu]

theorem exec_sameRegsBut (h : exec i s = .next t) : SameRegsBut s t (writtenRegisters i) := by
  cases i with
  | addReg | addImm | andReg | andImm | not | lea =>
    rw [eq_of_next_eq h]
    exact sameRegsBut_setRegCC (fun _ => rfl) _ _
  | ld | ldr =>
    rw [eq_of_next_eq h]
    exact sameRegsBut_setRegCC (s.memRead_reg _) _ _
  | ldi dr off =>
    rw [eq_of_next_eq ((exec_ldi dr off s).symm.trans h)]
    exact sameRegsBut_setRegCC (fun j => (State.memRead_reg _ _ j).trans (s.memRead_reg _ j)) _ _
  | sti sr off =>
    rw [eq_of_next_eq ((exec_sti sr off s).symm.trans h)]
    exact fun j _ => s.memRead_reg _ j
  | br mask off =>
    rw [eq_of_next_eq ((exec_br mask off s).symm.trans h)]
    exact fun _ _ => rfl
  | jmp | st | str | rti | res =>
    rw [eq_of_next_eq h]
    exact fun _ _ => rfl
  | trapGetchar =>
    obtain ⟨b, rest, -, rfl⟩ := execTrapGetchar_next h
    exact sameRegsBut_deliver s.sameRegsBut_link b
  | trapIn =>
    obtain ⟨b, rest, -, rfl⟩ := execTrapIn_next h
    exact sameRegsBut_deliver s.sameRegsBut_link b
  | trapPuts | trapPutsp =>
    obtain ⟨hregs, -, -, -⟩ := writeString_frame (putString_next h)
    exact fun j hj => (hregs j).trans (s.sameRegsBut_link j hj)
  | _ =>
    rw [eq_of_next_eq h]
    exact s.sameRegsBut_link

/-! ### Memory (20_memory.md R57) -/

/-- A cell the instruction does not store to, and no read of it can touch, is as before. -/
theorem exec_cell {a : Word} (hm : s.mem.wf = true) (h : exec i s = .next t) (hstore : storeAddress i s ≠ some a)
    (hread : readsMemory i = true → a ≠ config.kbsrAddr ∧ a ≠ config.kbdrAddr) : t.mem.cell a = s.mem.cell a := by
  cases i with
  | ld | ldr =>
    obtain ⟨hstatus, hdata⟩ := hread rfl
    rw [eq_of_next_eq h]
    exact s.memRead_cell_other hm hstatus hdata
  | ldi dr off =>
    obtain ⟨hstatus, hdata⟩ := hread rfl
    rw [eq_of_next_eq ((exec_ldi dr off s).symm.trans h)]
    exact (State.memRead_cell_other _ (s.wf_memRead _ hm) hstatus hdata).trans (s.memRead_cell_other hm hstatus hdata)
  | st | str =>
    rw [eq_of_next_eq h]
    exact Memory.cell_store_ne hm _ fun ha => hstore (congrArg some ha.symm)
  | sti sr off =>
    obtain ⟨hstatus, hdata⟩ := hread rfl
    rw [eq_of_next_eq ((exec_sti sr off s).symm.trans h)]
    exact (Memory.cell_store_ne (s.wf_memRead _ hm) _ fun ha => hstore (congrArg some ha.symm)).trans
      (s.memRead_cell_other hm hstatus hdata)
  | br mask off =>
    rw [eq_of_next_eq ((exec_br mask off s).symm.trans h)]
    rfl
  | trapGetchar =>
    obtain ⟨b, rest, -, rfl⟩ := execTrapGetchar_next h
    rfl
  | trapIn =>
    obtain ⟨b, rest, -, rfl⟩ := execTrapIn_next h
    rfl
  | trapPuts | trapPutsp =>
    obtain ⟨hstatus, hdata⟩ := hread rfl
    obtain ⟨-, hcells⟩ := writeString_mem (s := s.link) hm (putString_next h)
    exact hcells a hstatus hdata
  | _ =>
    rw [eq_of_next_eq h]
    rfl

/-! ### The run state (10_state.md R28) -/

/-- The run state an instruction leaves: FATAL if it raises, HALTED after HALT, else the one it found. -/
def runAfter (i : Instr) (r : RunState) : RunState :=
  match raises i with
  | some cause => .fatal cause
  | none => if i = .trapHalt then .halted else r

theorem exec_run (h : exec i s = .next t) : t.run = runAfter i s.run := by
  cases i with
  | ld | ldr =>
    rw [eq_of_next_eq h]
    exact s.memRead_run _
  | ldi dr off =>
    rw [eq_of_next_eq ((exec_ldi dr off s).symm.trans h)]
    exact (State.memRead_run _ _).trans (s.memRead_run _)
  | sti sr off =>
    rw [eq_of_next_eq ((exec_sti sr off s).symm.trans h)]
    exact s.memRead_run _
  | br mask off =>
    rw [eq_of_next_eq ((exec_br mask off s).symm.trans h)]
    rfl
  | trapGetchar =>
    obtain ⟨b, rest, -, rfl⟩ := execTrapGetchar_next h
    rfl
  | trapIn =>
    obtain ⟨b, rest, -, rfl⟩ := execTrapIn_next h
    rfl
  | trapPuts | trapPutsp =>
    obtain ⟨-, -, -, hrun⟩ := writeString_frame (putString_next h)
    exact hrun
  | _ =>
    rw [eq_of_next_eq h]
    rfl

/-! ### The console (10_state.md R29) -/

/-- `t` can follow `s` as to the console: bytes appended to the output, input used in the order it comes. -/
def ConsoleFollows (s t : State) : Prop := (∃ bytes, t.out = s.out ++ bytes) ∧ State.InputFollows s t

theorem ConsoleFollows.refl (s : State) : ConsoleFollows s s := ⟨⟨[], (List.append_nil _).symm⟩, .refl s⟩

theorem ConsoleFollows.memRead (h : ConsoleFollows s t) (a : Word) : ConsoleFollows s (t.memRead a).2 := by
  obtain ⟨⟨bytes, hout⟩, hinput⟩ := h
  exact ⟨⟨bytes, (t.memRead_out a).trans hout⟩, hinput.memRead a⟩

/-- Every other operation appends some bytes, or none, and takes some of the pending ones, or none. -/
theorem ConsoleFollows.write {u : State} (h : ConsoleFollows s t) (bytes taken : List Byte) (hout : u.out = t.out ++ bytes)
    (hinq : t.inq = taken ++ u.inq) (hpolls : u.polls = t.polls) (hfeed : u.feed = t.feed) : ConsoleFollows s u := by
  obtain ⟨⟨before, hbefore⟩, hinput⟩ := h
  exact ⟨⟨before ++ bytes, by rw [hout, hbefore, List.append_assoc]⟩, hinput.take hinq hpolls hfeed⟩

/-- An operation on the core alone. -/
theorem ConsoleFollows.silent {u : State} (h : ConsoleFollows s t) (hout : u.out = t.out) (hinq : u.inq = t.inq)
    (hpolls : u.polls = t.polls) (hfeed : u.feed = t.feed) : ConsoleFollows s u :=
  h.write [] [] (hout.trans (List.append_nil _).symm) hinq.symm hpolls hfeed

theorem keptByOperations_consoleFollows (s : State) : KeptByOperations (ConsoleFollows s) where
  memRead _ a h := h.memRead a
  memWrite _ _ _ h := h.silent rfl rfl rfl rfl
  setRegCC _ _ _ h := h.silent rfl rfl rfl rfl
  setPc _ _ h := h.silent rfl rfl rfl rfl
  link _ h := h.silent rfl rfl rfl rfl
  outBytes _ bytes h := h.write bytes [] rfl rfl rfl rfl
  takeByte _ b _ hinq h := h.write [] [b] (List.append_nil _).symm hinq rfl rfl
  halt _ h := h.silent rfl rfl rfl rfl
  raise _ _ _ h := h.silent rfl rfl rfl rfl

/-! ### Input an instruction does not draw on (10_state.md R29) -/

/-- Such an instruction is a function of the core and the output. -/
theorem exec_ignores_input (hd : drawsInput i = false) (h : exec i s = .next t) :
    (∀ bytes, exec i (s.receive bytes) = .next (t.receive bytes)) ∧
      ∀ polls feed, exec i (s.plan polls feed) = .next (t.plan polls feed) := by
  cases i with
  | ld | ldi | ldr | sti | trapPuts | trapPutsp | trapGetchar | trapIn => exact absurd hd (by simp [drawsInput, readsMemory])
  | br mask off =>
    rw [eq_of_next_eq ((exec_br mask off s).symm.trans h)]
    exact ⟨fun bytes => exec_br mask off (s.receive bytes), fun polls feed => exec_br mask off (s.plan polls feed)⟩
  | _ =>
    rw [eq_of_next_eq h]
    exact ⟨fun _ => rfl, fun _ _ => rfl⟩

end Sys2Proof.Machine

namespace Sys2Proof.Proofs

open Sys2Proof.Machine

/-- Settles O43: instruction by instruction, the register writes are those the rule names. -/
theorem onlyNamedRegistersAreWritten : Obligations.OnlyNamedRegistersAreWritten := fun _ _ _ => exec_sameRegsBut

/-- Settles O44: a store changes its own cell, a read the console cells, and nothing else touches memory. -/
theorem onlyStoresAndPollsChangeMemory : Obligations.OnlyStoresAndPollsChangeMemory :=
  fun _ _ _ hm h _ => exec_cell hm h

/-- Settles O45: each operation of a step appends to the output and uses input from the front, or touches neither. -/
theorem outputGrowsAndInputIsTakenInOrder : Obligations.OutputGrowsAndInputIsTakenInOrder :=
  fun s _ => (keptByOperations_consoleFollows s).step (.refl s)

/-- Settles O46: an instruction that draws on no input is blind to all of it. -/
theorem pendingInputIsInvisible : Obligations.PendingInputIsInvisible := by
  intro i s t bytes hd h
  obtain ⟨hreceive, hplan⟩ := exec_ignores_input hd h
  exact ⟨hreceive bytes, hplan⟩

end Sys2Proof.Proofs
end

