-- ==== Sys2Proof/Proofs/Invariant.lean ====
section
/-! PROOF. The invariant at every instruction boundary: the operations keep it, so steps do, and so does all that can happen
between steps (10_state.md R24, R28, R36). -/

namespace Sys2Proof.Machine

theorem State.condLegal_setRegCC (s : State) (r : RegIdx) (v : Word) : (s.setRegCC r v).condLegal = true :=
  (State.condLegal_iff _).mpr (flagOf_cases v)

/-- The invariant speaks of memory, flags and run state only. -/
theorem State.Inv.congr {s t : State} (h : s.Inv) (hm : t.mem.wf = true) (hcond : t.cond = s.cond) (hrun : t.run = s.run) :
    t.Inv := by
  obtain ⟨-, hlegal, hrunLegal⟩ := h
  exact ⟨hm, by rwa [condLegal, hcond], by rwa [runLegal, hrun]⟩

theorem keptByOperations_inv : KeptByOperations State.Inv where
  memRead u a h := h.congr (u.wf_memRead a h.left) (u.memRead_cond a) (u.memRead_run a)
  memWrite _ a v h := h.congr (Memory.wf_store h.left a v) rfl rfl
  setRegCC u r v := fun ⟨hm, _, hrun⟩ => ⟨hm, u.condLegal_setRegCC r v, hrun⟩
  setPc _ _ h := h
  link _ h := h
  outBytes _ _ h := h
  takeByte _ _ _ _ h := h
  halt _ := fun ⟨hm, hcond, _⟩ => ⟨hm, hcond, rfl⟩
  raise _ _ hlegal := fun ⟨hm, hcond, _⟩ => ⟨hm, hcond, hlegal⟩

theorem Move.keeps_inv {s t : State} (h : s.Inv) (m : Move s t) : t.Inv := by
  cases m with
  | core hstep => exact keptByOperations_inv.step h hstep
  | input | plan => exact h

end Sys2Proof.Machine

namespace Sys2Proof.Proofs

open Sys2Proof.Machine

/-- Settles O47: no operation breaks the invariant, so no step does. -/
theorem stepKeepsTheInvariant : Obligations.StepKeepsTheInvariant := fun _ _ => keptByOperations_inv.step

/-- Settles O48: memory is empty, the flags are ZERO, the core is RUNNING. -/
theorem resetMeetsTheInvariant : Obligations.ResetMeetsTheInvariant := ⟨rfl, rfl, rfl⟩

/-- Settles O49: induction over the moves, steps and arrivals alike. -/
theorem invariantHoldsOfEveryReachableState : Obligations.InvariantHoldsOfEveryReachableState := by
  intro s t h hreach
  induction hreach with
  | refl => exact h
  | tail _ move ih => exact move.keeps_inv ih

end Sys2Proof.Proofs
end

