-- ==== Sys2Proof/Proofs/StepCases.lean ====
section
/-! PROOF. Single steps: the placed Word, the store the next fetch sees, the fetch from the status register, and the transitions of
the run state (45_execution_loop.md R160, R161; 20_memory.md R67). -/

namespace Sys2Proof.Machine

open Sys2Proof.Claims

variable {s : State}

/-- The byte-level decoder on the two bytes of a Word is the decoder. -/
theorem decodeTableWord_toNat (w : Word) : decodeTableWord 16 w.toNat = some (decode w) := by
  have hbits : BitVec.ofNat 16 (w.toNat % 2 ^ 16) = w := by
    rw [Nat.mod_eq_of_lt w.isLt, BitVec.ofNat_toNat, BitVec.setWidth_eq]
  rw [decodeTableWord, if_pos (Nat.le_refl 16), hbits]
  exact congrArg (fun v => some (decode v)) (Memory.halves_append w)

/-- Placing a Word is storing it at pc. -/
theorem withFetchWord_toNat (s : State) (w : Word) : s.withFetchWord 16 w.toNat = s.memWrite s.pc w := by
  rw [State.withFetchWord, Nat.mod_eq_of_lt w.isLt, BitVec.ofNat_toNat, BitVec.setWidth_eq]

/-- Away from the status register a step executes what the cell at pc decodes to. -/
theorem step_plain (hrun : s.run = .running) (hpc : s.pc ≠ config.kbsrAddr) :
    step s = exec (decode (s.mem.cell s.pc)) (s.setPc (s.pc + 1)) := by
  rw [step_of_running hrun, fetch_plain hpc]

/-- At the status register it executes the answer of the poll. -/
theorem step_status (hrun : s.run = .running) (hpc : s.pc = config.kbsrAddr) (hm : s.mem.wf = true) :
    step s = exec (decode (if s.arrive.inReady.1 then 0x8000 else 0x0000)) (s.poll.setPc (s.pc + 1)) := by
  rw [step_of_running hrun, fetch_fst, fetch_snd, hpc, s.memRead_status_fst hm, State.memRead_status]

/-- 0x0000 is BR with an empty mask, a no-operation. -/
theorem exec_decode_zero (s : State) : exec (decode 0x0000) s = .next s := by
  have hdecode : decode 0x0000 = .br 0 0 := by decide
  rw [hdecode, exec_br, if_neg (fun h => h (Nat.zero_and _))]
  rfl

/-- 0x8000 is RTI. -/
theorem exec_decode_ready (s : State) : exec (decode 0x8000) s = .next (s.raise (.fatalOpcode .rti)) := by
  have hdecode : decode 0x8000 = .rti := by decide
  rw [hdecode, exec_rti]

/-- A completed reset sequence leaves the core RUNNING (70_reset_and_hazards.md R200). -/
theorem resetWith_run {first : ImageStream} {rest : List ImageStream} {t : State} (h : s.resetWith first rest = .ok t) :
    t.run = .running := by
  unfold State.resetWith at h
  split at h
  · cases h
    rfl
  · cases h

end Sys2Proof.Machine

namespace Sys2Proof.Proofs

open Sys2Proof.Machine Sys2Proof.Claims

/-- Settles O38: the cell at pc is the Word placed there, and the fetch is plain. -/
theorem placedWordIsTheNextInstruction : Obligations.PlacedWordIsTheNextInstruction := by
  intro s w hm hrun hpc
  refine ⟨decodeTableWord_toNat w, ?_⟩
  rw [withFetchWord_toNat, step_plain (s := s.memWrite s.pc w) hrun hpc, State.memWrite_mem, State.memWrite_pc,
    Memory.cell_store_self hm]
  rfl

/-- Settles O39: the poll's answer is executed, as a no-operation or as RTI, over the state the poll left. -/
theorem fetchFromTheStatusRegister : Obligations.FetchFromTheStatusRegister := by
  intro s hm hrun hpc
  have hstep := step_status hrun hpc hm
  have hregs : SameRegsBut s s.poll [] := fun j _ => State.reg_congr _ _ s.poll_x j
  constructor
  · intro hnot
    obtain ⟨hcell, hinq⟩ := s.poll_not_ready_spec hm hnot
    rw [hnot] at hstep
    exact ⟨_, hstep.trans (exec_decode_zero _), rfl, s.poll_run.trans hrun, hinq, hregs, s.poll_cond, s.poll_out, hcell⟩
  · intro hready
    obtain ⟨byte, rest, harrived, hinq, hcell⟩ := s.poll_ready_cells hm hready
    rw [hready] at hstep
    exact ⟨_, byte, rest, hstep.trans (exec_decode_ready _), rfl, rfl, harrived, hinq, hregs, s.poll_cond, s.poll_out, hcell⟩

/-- Settles O40: a step exists from RUNNING only, and then its instruction decides the run state. -/
theorem runStateTransitions : Obligations.RunStateTransitions := by
  refine ⟨fun s t hstep => ?_, fun s => ⟨step_of_halted, fun _ => step_of_fatal, fun _ _ _ => resetWith_run⟩⟩
  obtain ⟨hrun, hexec⟩ := step_next hstep
  have hafter := exec_run hexec
  rw [fetch_run, hrun] at hafter
  exact ⟨hrun, hafter⟩

/-- Settles O41: the store is at the incremented pc, where the next fetch reads plainly. -/
theorem storeIsSeenByTheNextFetch : Obligations.StoreIsSeenByTheNextFetch := by
  intro s sr hm hrun hpc hnext hdecode
  have htarget : (s.setPc (s.pc + 1)).pcRel9 0 = s.pc + 1 := BitVec.add_zero _
  refine ⟨(s.setPc (s.pc + 1)).memWrite (s.pc + 1) (s.reg sr), ?_, rfl, ?_⟩
  · rw [step_plain hrun hpc, hdecode, exec_st, htarget]
    rfl
  · rw [step_plain (s := (s.setPc (s.pc + 1)).memWrite (s.pc + 1) (s.reg sr)) hrun hnext]
    rw [State.memWrite_mem, State.memWrite_pc, State.setPc_pc, State.setPc_mem, Memory.cell_store_self hm]
    rfl

end Sys2Proof.Proofs
end

