-- ==== Sys2Proof/Proofs/ImageLoader.lean ====
section
/-! PROOF. The image loader and the reset sequence: which images fail, and what the others leave in memory
(70_reset_and_hazards.md R200 to R207). -/

namespace Sys2Proof.Machine

open Sys2Proof.Claims

/-! ### One image -/

/-- The positions R204 and R205 name are those of the payload's Words behind the origin. -/
theorem imageWord_bytes (h l : Byte) (payload : List Byte) (a : Word) :
    imageWord (.bytes (h :: l :: payload)) a =
      if (wordOfBytes h l).toNat ≤ a.toNat then (payloadWords payload)[a.toNat - (wordOfBytes h l).toNat]? else none := by
  have hhigh : ∀ i, (h :: l :: payload)[2 + 2 * i]? = payload[2 * i]? := fun i => by
    rw [Nat.add_comm]
    rfl
  have hlow : ∀ i, (h :: l :: payload)[3 + 2 * i]? = payload[2 * i + 1]? := fun i => by
    rw [Nat.add_comm]
    rfl
  simp only [imageWord, List.getElem?_cons_zero, List.getElem?_cons_succ, hhigh, hlow]
  rw [toNat_wordOfBytes, getElem?_payloadWords]
  by_cases ho : h.toNat * 256 + l.toNat ≤ a.toNat
  · rw [if_pos ho, if_pos ho]
    cases payload[2 * (a.toNat - (h.toNat * 256 + l.toNat))]? with
    | none => rfl
    | some wh =>
      cases payload[2 * (a.toNat - (h.toNat * 256 + l.toNat)) + 1]? with
      | none => rfl
      | some wl => exact congrArg some (wordOfBytes_eq wh wl).symm
  · rw [if_neg ho, if_neg ho]

/-- An image is not at fault exactly when it has its two header bytes. -/
theorem imageFault_eq_none_iff (img : ImageStream) :
    imageFault img = none ↔ ∃ h l payload, img = .bytes (h :: l :: payload) := by
  match img with
  | .unopenable | .bytes [] | .bytes [_] => simp [imageFault]
  | .bytes (h :: l :: payload) => simp [imageFault]

/-- An image at fault is turned down with its cause. -/
theorem loadImage_of_fault {img : ImageStream} {cause : ImageCause} (h : imageFault img = some cause) (m : Memory) :
    loadImage m img = .error cause := by
  match img with
  | .unopenable | .bytes [] | .bytes [_] =>
    cases h
    rfl
  | .bytes (_ :: _ :: _) => simp [imageFault] at h

/-- Any other is stored, Word by Word. -/
theorem loadImage_of_no_fault {img : ImageStream} (h : imageFault img = none) {m : Memory} (hm : m.wf = true) :
    ∃ m', loadImage m img = .ok m' ∧ m'.wf = true ∧ ∀ a, m'.cell a = (imageWord img a).getD (m.cell a) := by
  obtain ⟨h, l, payload, rfl⟩ := (imageFault_eq_none_iff img).mp h
  refine ⟨_, rfl, wf_storeWords hm _ _, fun a => ?_⟩
  rw [cell_storeWords hm, imageWord_bytes]
  split <;> rfl

/-! ### A list of images -/

section OneByOne

variable {img : ImageStream} {rest : List ImageStream}

/-- The first image at fault ends the load (R207). -/
theorem loadImages_cons_of_fault {cause : ImageCause} (h : imageFault img = some cause) (j : Nat) (m : Memory) :
    loadImages j (img :: rest) m = .error { index := j, cause := cause } := by
  rw [loadImages, loadImage_of_fault h]

/-- Any other is stored, and the rest is loaded over it (R206). -/
theorem loadImages_cons_of_no_fault (h : imageFault img = none) (j : Nat) (m : Memory) :
    ∃ m1, loadImage m img = .ok m1 ∧ loadImages j (img :: rest) m = loadImages (j + 1) rest m1 := by
  obtain ⟨_, _, _, rfl⟩ := (imageFault_eq_none_iff img).mp h
  exact ⟨_, rfl, rfl⟩

end OneByOne

variable {imgs : List ImageStream}

/-- Of a list with no image at fault, the last image that covers a cell gives it its Word. -/
theorem loadImages_of_no_fault (h : ∀ img ∈ imgs, imageFault img = none) (j : Nat) {m : Memory} (hm : m.wf = true) :
    ∃ m', loadImages j imgs m = .ok m' ∧ m'.wf = true ∧
      ∀ a, m'.cell a = (imgs.reverse.findSome? (imageWord · a)).getD (m.cell a) := by
  induction imgs generalizing j m with
  | nil => exact ⟨m, rfl, hm, fun _ => rfl⟩
  | cons img rest ih =>
    obtain ⟨himg, hrest⟩ := List.forall_mem_cons.mp h
    obtain ⟨m1, hload, hm1, hcell1⟩ := loadImage_of_no_fault himg hm
    obtain ⟨m2, hloads, hm2, hcell2⟩ := ih hrest (j + 1) hm1
    refine ⟨m2, by rw [loadImages, hload]; exact hloads, hm2, fun a => ?_⟩
    rw [hcell2, hcell1, List.reverse_cons, List.findSome?_append]
    cases List.findSome? (imageWord · a) rest.reverse <;> simp

/-- A load that succeeds met no image at fault. -/
theorem no_fault_of_loadImages {j : Nat} {m m' : Memory} (h : loadImages j imgs m = .ok m') :
    ∀ img ∈ imgs, imageFault img = none := by
  induction imgs generalizing j m with
  | nil => exact fun _ hmem => absurd hmem List.not_mem_nil
  | cons img rest ih =>
    cases hfault : imageFault img with
    | some cause =>
      rw [loadImages_cons_of_fault hfault] at h
      cases h
    | none =>
      obtain ⟨m1, -, hcons⟩ := loadImages_cons_of_no_fault (rest := rest) hfault j m
      exact List.forall_mem_cons.mpr ⟨hfault, ih (hcons.symm.trans h)⟩

/-- A load fails exactly with the index and the cause of the first image at fault. -/
theorem loadImages_eq_error_iff {j : Nat} {m : Memory} {e : ImageError} :
    loadImages j imgs m = .error e ↔
      ∃ k, e.index = j + k ∧ imgs[k]?.bind imageFault = some e.cause ∧ ∀ i < k, imgs[i]?.bind imageFault = none := by
  induction imgs generalizing j m with
  | nil => simp [loadImages]
  | cons img rest ih =>
    cases hfault : imageFault img with
    | some cause =>
      rw [loadImages_cons_of_fault hfault]
      constructor
      · rintro ⟨⟩
        exact ⟨0, rfl, hfault, fun i hi => absurd hi (Nat.not_lt_zero i)⟩
      · rintro ⟨_ | k, hindex, hat, hbefore⟩
        · have hcause : cause = e.cause := Option.some.inj (hfault.symm.trans hat)
          rw [hcause, ← show e.index = j from hindex]
        · exact absurd (hfault.symm.trans (hbefore 0 (Nat.succ_pos k))) (Option.some_ne_none cause)
    | none =>
      obtain ⟨m1, -, hcons⟩ := loadImages_cons_of_no_fault (rest := rest) hfault j m
      rw [hcons, ih]
      constructor
      · rintro ⟨k, hindex, hat, hbefore⟩
        refine ⟨k + 1, by omega, hat, fun i hi => ?_⟩
        cases i with
        | zero => exact hfault
        | succ i => exact hbefore i (by omega)
      · rintro ⟨_ | k, hindex, hat, hbefore⟩
        · exact absurd (hfault.symm.trans hat).symm (Option.some_ne_none _)
        · exact ⟨k, by omega, hat, fun i hi => hbefore (i + 1) (by omega)⟩

/-! ### The reset sequence (R200, R201) -/

/-- The state a completed reset sequence leaves, by the memory the images fill. -/
def State.resetInto (s : State) (m : Memory) : State :=
  { State.reset with mem := m, inq := s.inq, polls := s.polls, feed := s.feed, draws := s.draws }

section Reset

variable {s : State} {first : ImageStream} {rest : List ImageStream}

theorem resetWith_eq_ok_iff {t : State} :
    s.resetWith first rest = .ok t ↔ ∃ m, loadImages 0 (first :: rest) [] = .ok m ∧ t = s.resetInto m := by
  unfold State.resetWith
  cases loadImages 0 (first :: rest) [] with
  | ok m => exact ⟨fun h => ⟨m, rfl, (Except.ok.inj h).symm⟩, fun ⟨_, hm, ht⟩ => by cases hm; rw [ht]; rfl⟩
  | error e => exact ⟨fun h => (nomatch h), fun ⟨_, hm, _⟩ => (nomatch hm)⟩

theorem resetWith_eq_error_iff {e : ImageError} :
    s.resetWith first rest = .error e ↔ loadImages 0 (first :: rest) [] = .error e := by
  unfold State.resetWith
  cases loadImages 0 (first :: rest) [] with
  | ok m => exact ⟨fun h => (nomatch h), fun h => (nomatch h)⟩
  | error e' => exact ⟨fun h => congrArg _ (Except.error.inj h), fun h => congrArg _ (Except.error.inj h)⟩

/-- With no image at fault the sequence completes, and each cell holds the Word of the last image that covers it, or zero. -/
theorem resetWith_of_no_fault (s : State) (h : ∀ img ∈ first :: rest, imageFault img = none) :
    ∃ m, s.resetWith first rest = .ok (s.resetInto m) ∧ m.wf = true ∧
      ∀ a, m.cell a = ((first :: rest).reverse.findSome? (imageWord · a)).getD 0x0000 := by
  obtain ⟨m, hload, hm, hcell⟩ := loadImages_of_no_fault h 0 Memory.wf_nil
  exact ⟨m, resetWith_eq_ok_iff.mpr ⟨m, hload, rfl⟩, hm, fun a => by rw [hcell, Memory.cell_nil]⟩

end Reset

/-! ### An image written from Words -/

/-- The two bytes of a Word in image order make the Word (R204). -/
theorem wordOfBytes_slices (w : Word) :
    wordOfBytes (BitVec.ofNat 8 (slice w 15 8)) (BitVec.ofNat 8 (slice w 7 0)) = w := by
  rw [← lowByte_eq_slice, ← highByte_eq_slice]
  exact Memory.halves_append w

theorem payloadWords_flatMap (ws : List Word) :
    payloadWords (ws.flatMap fun w => [BitVec.ofNat 8 (slice w 15 8), BitVec.ofNat 8 (slice w 7 0)]) = ws := by
  induction ws with
  | nil => rfl
  | cons w ws ih =>
    rw [List.flatMap_cons]
    exact congrArg₂ List.cons (wordOfBytes_slices w) ih

/-- The header, then the payload. -/
theorem imageBytes_eq (o : Word) (ws : List Word) :
    imageBytes o ws = BitVec.ofNat 8 (slice o 15 8) :: BitVec.ofNat 8 (slice o 7 0) ::
      ws.flatMap fun w => [BitVec.ofNat 8 (slice w 15 8), BitVec.ofNat 8 (slice w 7 0)] := rfl

/-- An image from origin `o` puts its i-th Word at `o + i`, where that is an address. -/
theorem imageWord_imageBytes {o : Word} {ws : List Word} {i : Nat} (hi : i < ws.length) (hfits : o.toNat + i < 65536) :
    imageWord (.bytes (imageBytes o ws)) (o + BitVec.ofNat 16 i) = some ws[i] := by
  have haddr : (o + BitVec.ofNat 16 i).toNat = o.toNat + i := by
    rw [BitVec.toNat_add, BitVec.toNat_ofNat]
    omega
  rw [imageBytes_eq, imageWord_bytes, wordOfBytes_slices, haddr, if_pos (Nat.le_add_right _ _), Nat.add_sub_cancel_left,
    payloadWords_flatMap, List.getElem?_eq_getElem hi]

/-- What the last image of a list puts somewhere is what the list puts there. -/
theorem findSome?_reverse_of_last {img : ImageStream} {a w : Word} (hlast : imgs.getLast? = some img)
    (hw : imageWord img a = some w) : imgs.reverse.findSome? (imageWord · a) = some w := by
  obtain ⟨before, rfl⟩ := List.getLast?_eq_some_iff.mp hlast
  rw [List.reverse_append, List.reverse_singleton, List.singleton_append, List.findSome?_cons, hw]

end Sys2Proof.Machine

namespace Sys2Proof.Proofs

open Sys2Proof.Machine Sys2Proof.Claims

/-- Settles O50: an image with its two header bytes is stored Word by Word; any other is turned down. -/
theorem loadImagePutsEveryWord : Obligations.LoadImagePutsEveryWord := by
  refine fun m hm => ⟨rfl, fun b => ⟨fun hshort => ?_, fun hlong => ?_⟩⟩
  · have hfault : imageFault (.bytes b) = some .header := if_pos hshort
    exact loadImage_of_fault hfault m
  · have hfault : imageFault (.bytes b) = none := if_neg (Nat.not_lt.mpr hlong)
    exact loadImage_of_no_fault hfault hm

/-- Settles O51: the sequence completes exactly when the load does, and the load says what memory holds. -/
theorem resetGivesTheInitialState : Obligations.ResetGivesTheInitialState := by
  intro s first rest
  have hfault : ∀ t, s.resetWith first rest = .ok t → ∀ img ∈ first :: rest, imageFault img = none := by
    intro t ht
    obtain ⟨m, hload, -⟩ := resetWith_eq_ok_iff.mp ht
    exact no_fault_of_loadImages hload
  refine ⟨⟨fun ⟨t, ht⟩ => hfault t ht, fun h => ?_⟩, fun t ht => ?_⟩
  · obtain ⟨m, hreset, -⟩ := resetWith_of_no_fault s h
    exact ⟨_, hreset⟩
  · obtain ⟨m, hreset, hm, hcell⟩ := resetWith_of_no_fault s (hfault t ht)
    obtain rfl : s.resetInto m = t := Except.ok.inj (hreset.symm.trans ht)
    exact ⟨State.reg_reset, rfl, rfl, rfl, rfl, ⟨rfl, rfl, rfl, rfl⟩, ⟨hm, rfl, rfl⟩, hcell⟩

/-- Settles O52: the sequence fails exactly when the load does. -/
theorem firstFaultyImageEndsReset : Obligations.FirstFaultyImageEndsReset := by
  intro s first rest j cause
  rw [resetWith_eq_error_iff, loadImages_eq_error_iff]
  constructor
  · rintro ⟨k, hindex, hfirst⟩
    obtain rfl : j = k := hindex.trans (Nat.zero_add k)
    exact hfirst
  · exact fun hfirst => ⟨j, (Nat.zero_add j).symm, hfirst⟩

/-- Settles O53: the last image wins, and reads its Words back where MemRead is plain. -/
theorem loadedImageIsReadBack : Obligations.LoadedImageIsReadBack := by
  intro s first rest o ws hfault hlast hfits
  obtain ⟨m, hreset, -, hcell⟩ := resetWith_of_no_fault s hfault
  refine ⟨_, hreset, fun i hi hplain => ?_⟩
  have hword := imageWord_imageBytes hi (show o.toNat + i < 65536 by omega)
  rw [State.memRead_plain _ hplain]
  exact (hcell _).trans (congrArg (·.getD 0x0000) (findSome?_reverse_of_last hlast hword))

end Sys2Proof.Proofs
end
